-- ==== Sys2Proof/Word.lean ====
section
/-! DEFINITION. The word types of the FS_A8S frame decoder (R12, R24, R65). -/

namespace Sys2Proof

/-- A byte, an unsigned value 0 to 255 (R12). -/
abbrev Byte := BitVec 8

/-- A 16-bit unsigned channel field, 0 to 65535 (R24, R61). -/
abbrev Field := BitVec 16

/-- The dispatch word DW, 13 bits (R65). -/
abbrev DispatchWord := BitVec 13

/-- The cursor class code `cls`, 2 bits (R64). -/
abbrev ClassCode := BitVec 2

end Sys2Proof
end

