-- ==== Sys2Proof/Config.lean ====
section
/-! DEFINITION. The configuration record of one instance (R7 to R11), the input ports (R30), and the free values:
what the spec leaves to the environment (R35, U14) and the power-up content of BUF (R33, U4). -/

namespace Sys2Proof

/-- COMPLETION_GATE (R7, R68, R107): whether the completing poll needs, and swallows, a byte. -/
inductive CompletionGate where
  | byteGated
  | ungated
  deriving DecidableEq, Repr

/-- The nine fields of table T7 under R7, as an integrator would write them down, checked by nothing yet. -/
structure CfgFields where
  /-- CAPACITY: number of bytes in BUF; the cursor value at which a frame is complete. -/
  capacity : Nat
  /-- N: number of channels. -/
  n : Nat
  headerByte1 : Byte
  headerByte2 : Byte
  fromLow : Int
  fromHigh : Int
  toLow : Int
  toHigh : Int
  completionGate : CompletionGate
  deriving DecidableEq, Repr

/-- A configuration of the hardware: the fields with the two constraints of R8 and R9, so that a violating record
is no value of this type and has no behaviour (D14, U1, U2). -/
structure Cfg extends CfgFields where
  /-- R8: `CAPACITY >= 2 + 2*N`. -/
  room : 2 + 2 * n ≤ capacity
  /-- R9: `FROM_HIGH != FROM_LOW`. -/
  span : fromHigh ≠ fromLow
  deriving DecidableEq, Repr

/-- CAPACITY is at least 2 (R8). -/
theorem two_le_capacity (cfg : Cfg) : 2 ≤ cfg.capacity := Nat.le_trans (Nat.le_add_right ..) cfg.room

/-- CAPACITY is at least 1 (R8). -/
theorem one_le_capacity (cfg : Cfg) : 1 ≤ cfg.capacity := Nat.le_of_succ_le (two_le_capacity cfg)

/-- Why a configuration is refused when it is built (R8, R9, R130); safe, no machine exists for it. -/
inductive BadCfg where
  /-- R8, U1: CAPACITY is less than 2 + 2N. -/
  | capacityTooSmall
  /-- R9, U2: FROM_HIGH equals FROM_LOW. -/
  | zeroSpan
  deriving DecidableEq, Repr

/-- Building a configuration (R8, R9, R164): checked here, once, and never again. -/
def Cfg.build (f : CfgFields) : Except BadCfg Cfg :=
  if room : 2 + 2 * f.n ≤ f.capacity then
    if span : f.fromHigh ≠ f.fromLow then .ok { f with room, span } else .error .zeroSpan
  else .error .capacityTooSmall

/-- The default instance (R11, table T7): CAPACITY 32, N 6, header 0x20 0x40, map 1000..2000 onto 0..255, and the
spec's default gate (D1). The literals are unaudited (R7, D23; log entry 12). -/
def Cfg.default : Cfg where
  capacity := 32
  n := 6
  headerByte1 := 0x20
  headerByte2 := 0x40
  fromLow := 1000
  fromHigh := 2000
  toLow := 0
  toHigh := 255
  completionGate := .byteGated
  room := by decide
  span := by decide

/-- The input ports at one rising edge of `clk` (R30). -/
structure Pins where
  rst : Bool
  poll : Bool
  inValid : Bool
  inData : Byte
  deriving DecidableEq, Repr, Inhabited

/-- FREE VALUE (log entry 1): the levels the environment drives on the input ports at the t-th edge, where the state
sets none. The spec leaves them to the environment (R35). -/
opaque Config.environment : Nat → Pins

/-- FREE VALUE (log entry 3): what address k of BUF holds before anything has written it (R33, U4: "arbitrary bytes,
under no law"). -/
opaque Config.powerUpByte : Nat → Byte

end Sys2Proof
end

