-- ==== Sys2Proof/Syntax.lean ====
section
/-! DEFINITION. The operations a step can perform (R66, R68, R74): one constructor per row of opcode_table.json.
`val` is the consumed byte (R84). -/

namespace Sys2Proof

/-- The operations of R66, and COMPLETE under UNGATED (R68) as a row of its own (R74). -/
inductive Instr where
  /-- RESET (R81). -/
  | reset
  /-- IDLE (R82). -/
  | idle
  /-- NOBYTE (R83). -/
  | noByte
  /-- COMPLETE under BYTE_GATED (R105): `val` is consumed and not used. -/
  | complete (val : Byte)
  /-- COMPLETE under UNGATED (R105, R68): no byte is looked at. -/
  | completeUngated
  /-- H1_MATCH (R90). -/
  | h1Match (val : Byte)
  /-- H1_MISS (R91). -/
  | h1Miss (val : Byte)
  /-- H2_MATCH (R92). -/
  | h2Match (val : Byte)
  /-- H2_MISS (R93). -/
  | h2Miss (val : Byte)
  /-- FILL (R100). -/
  | fill (val : Byte)
  deriving DecidableEq, Repr

end Sys2Proof
end

