-- ==== Sys2Proof/Machine/State.lean ====
section
/-! DEFINITION. The state of the machine (R20 to R25, R33), the reasons a step can stop, and the state after reset
(R151). -/

namespace Sys2Proof.Machine

/-- The content of BUF: (address, byte) pairs, addresses strictly rising, one pair for each address that something
has written. An address without a pair has never been written. -/
abbrev Memory := List Host.Cell

/-- The machine. `cursor`, `buf`, `raw` and `scaled` are the spec's whole state (R20); `cfg` is the configuration of
the instance, which no operation changes (R7, R27; log entry 2); the other fields are the model's own. -/
structure State where
  /-- The configuration constants (R7); not state in the spec (R35). -/
  cfg : Cfg
  /-- CURSOR (R21). -/
  cursor : Nat
  /-- R21: the value "is always in the closed range 0 to CAPACITY"; a greater one is no value of the type (D15, U7). -/
  cursor_le : cursor ≤ cfg.capacity
  /-- BUF (R23, R40). -/
  buf : Memory
  /-- RAW[0] to RAW[N-1] (R24). -/
  raw : List Field
  /-- SCALED[0] to SCALED[N-1] (R25), as the integers their stored patterns stand for (log entry 6). -/
  scaled : List Int
  /-- The output `in_take` of the last step (R30, R84; log entry 4). -/
  inTake : Bool
  /-- The output `frame_done` of the last step (R32; log entry 4). -/
  frameDone : Bool
  /-- The levels set on the input ports for the coming edges, next edge first (R30, R72; log entry 1). -/
  inputs : List Pins
  /-- How many edges have been taken; it indexes the free inputs and nothing else (log entry 14). -/
  clock : Nat
  deriving DecidableEq, Repr

/-- The hardware has no exceptions: "The set of synchronous exception causes is empty" (R130). No constructor. -/
inductive Fault where
  deriving DecidableEq, Repr

/-- Why the model gives an operation no next state. -/
inductive Refusal where
  /-- No meaning written yet; raised by an arm of `exec` only. Safe. -/
  | notModelled (mnemonic : String)
  /-- FILL at CURSOR = CAPACITY, an address that MemWrite does not have (R13, R40). The operation map never selects FILL
  there (R66), so no step meets it; raised by `execFill` only (log entry 5). Safe. -/
  | cursorOutsideBuffer
  deriving DecidableEq, Repr

/-- The answer of a meaning and of a step. -/
abbrev Outcome := Host.Outcome State Fault Refusal

/-- The machine right after a RESET step (R151, R33) in the default instance (R11): CURSOR 0, every RAW and SCALED
element 0, `in_take` and `frame_done` 0, BUF with nothing written since power-up, no inputs set. -/
def State.reset : State where
  cfg := Cfg.default
  cursor := 0
  cursor_le := Nat.zero_le _
  buf := []
  raw := [0, 0, 0, 0, 0, 0]
  scaled := [0, 0, 0, 0, 0, 0]
  inTake := false
  frameDone := false
  inputs := []
  clock := 0

end Sys2Proof.Machine
end

