-- ==== Sys2Proof/Machine/Ops.lean ====
section
/-! DEFINITION. The named operations over BUF and the registers (R13, R40, R57). Taking an exception and returning
from one do not exist in this hardware (R130, R134, R135), so no operation for them stands here. -/

namespace Sys2Proof.Machine

/-! ### BUF as a list of cells -/

/-- The byte listed at an address; none where nothing has written it. -/
def Memory.read (m : Memory) (a : Nat) : Option Byte :=
  match m with
  | [] => none
  | (b, v) :: rest => if b = a then some v else Memory.read rest a

/-- The memory with `v` at address `a`, in rising order of addresses. -/
def Memory.write (m : Memory) (a : Nat) (v : Byte) : Memory :=
  match m with
  | [] => [(a, v)]
  | (b, u) :: rest =>
    if a < b then (a, v) :: (b, u) :: rest
    else if a = b then (a, v) :: rest
    else (b, u) :: Memory.write rest a v

/-- The canonical form: addresses strictly rising. An unlisted address reads as "never written", which no pair can
say, so no pair is superfluous. -/
def Memory.wf : Memory → Bool
  | [] => true
  | [_] => true
  | c :: d :: rest => decide (c.1 < d.1) && Memory.wf (d :: rest)

/-- The byte of BUF at an address (R40); a byte that nothing has written is the free value of R33. -/
def byteAt (s : State) (a : Nat) : Byte := (s.buf.read a).getD (Config.powerUpByte a)

/-! ### Updates of the registers -/

/-- `CURSOR <- c`, for a value in CURSOR's range (R21). -/
def State.withCursor (s : State) (c : Nat) (h : c ≤ s.cfg.capacity) : State := { s with cursor := c, cursor_le := h }

/-- `RAW[i] <- ...` and `SCALED[i] <- ...` for every i, in one step (R46). -/
def State.withChannels (s : State) (raw : List Field) (scaled : List Int) : State :=
  { s with raw := raw, scaled := scaled }

/-- The outputs of the step: `in_take` and `frame_done` (R13, R80). -/
def State.withOutputs (s : State) (inTake frameDone : Bool) : State :=
  { s with inTake := inTake, frameDone := frameDone }

/-- The levels set on the input ports for the coming edges. -/
def State.withInputs (s : State) (inputs : List Pins) : State := { s with inputs := inputs }

/-- `MemWrite(a, 1, v)`: `BUF[a] <- v` (R13). -/
def State.withByte (s : State) (a : Nat) (v : Byte) : State := { s with buf := s.buf.write a v }

/-! ### The append of R57 -/

/-- Store `v` at `BUF[a]` and advance CURSOR to `next`, with the byte taken and no frame done: what H1_MATCH, H2_MATCH
and FILL have in common (R57 (a)). -/
def appendByte (a : Nat) (v : Byte) (next : Nat) (s : State) (h : next ≤ s.cfg.capacity) : State :=
  ((s.withCursor next h).withByte a v).withOutputs true false

/-- Consume the byte and store it nowhere: what H1_MISS and H2_MISS have in common (R47, R70 (a)). -/
def dropByte (s : State) : State := s.withOutputs true false

/-- Consume nothing and change nothing: what IDLE and NOBYTE have in common (R82, R83). -/
def keepAll (s : State) : State := s.withOutputs false false

end Sys2Proof.Machine
end

