-- ==== Sys2Proof/Machine/Accumulate.lean ====
section
/-! DEFINITION. Payload accumulation: FILL (R100 to R102). -/

namespace Sys2Proof.Machine

/-- FILL (R100): `BUF[CURSOR] <- val`, CURSOR + 1. MemWrite is defined only below CAPACITY (R13); at CAPACITY the
dispatch never selects FILL (R66), so no step reaches the other case (log entry 5). -/
def execFill (val : Byte) (s : State) : Outcome :=
  if h : s.cursor < s.cfg.capacity then .next (appendByte s.cursor val (s.cursor + 1) s (Nat.succ_le_of_lt h))
  else .refused .cursorOutsideBuffer

end Sys2Proof.Machine
end

