-- ==== Sys2Proof/Machine/Operands.lean ====
section
/-! DEFINITION. Operand assembly: the little-endian pair read and the field extractor EXTRACT16 (R42, R63, R106).
The only other operand is the consumed byte `val = in_data` (R84), which the decoder hands over. -/

namespace Sys2Proof.Machine

/-- The address of channel i's low byte (R41, R57 (b)). -/
def lowAddress (i : Nat) : Nat := 2 + 2 * i

/-- The address of channel i's high byte (R41). -/
def highAddress (i : Nat) : Nat := 3 + 2 * i

/-- `(hi << 8) | lo`, an unsigned 16-bit value (R63, R123 (d)). -/
def assemble (lo hi : Byte) : Field := (hi.setWidth 16 <<< 8) ||| lo.setWidth 16

/-- `MemRead(a, 2)` (R13): the bytes at a and a + 1, the lower address less significant (R42). -/
def memRead2 (s : State) (a : Nat) : Field := assemble (byteAt s a) (byteAt s (a + 1))

/-- EXTRACT16(BUF, i) (R106). The addresses are below CAPACITY for every i < N, by R8. -/
def extract16 (s : State) (i : Nat) : Field := memRead2 s (lowAddress i)

/-- The N extracted fields, channel 0 first (R105). -/
def extractAll (s : State) : List Field := (List.range s.cfg.n).map (extract16 s)

end Sys2Proof.Machine
end

