-- ==== Sys2Proof/Machine/Rescale.lean ====
section
/-! DEFINITION. The fixed-point rescaler (R115 to R124), on unbounded integers: nothing wraps, nothing is clamped
(R118, R119). -/

namespace Sys2Proof.Machine

/-- `tdiv(a, b) = sgn(a) * sgn(b) * floor(|a| / |b|)` (R117; log entry 11 on the direction of rounding). -/
def tdiv (a b : Int) : Int := a.sign * b.sign * ((a.natAbs / b.natAbs : Nat) : Int)

/-- RESCALE on the integer value of a field (R116). -/
def rescaleInt (cfg : Cfg) (raw : Int) : Int :=
  cfg.toLow + tdiv ((raw - cfg.fromLow) * (cfg.toHigh - cfg.toLow)) (cfg.fromHigh - cfg.fromLow)

/-- RESCALE(raw): the field enters as a non-negative integer 0 to 65535 (R115). -/
def rescale (cfg : Cfg) (raw : Field) : Int := rescaleInt cfg raw.toNat

end Sys2Proof.Machine
end

