-- ==== Sys2Proof/Machine/Completion.lean ====
section
/-! DEFINITION. Frame completion: COMPLETE under both gates (R105). -/

namespace Sys2Proof.Machine

/-- Publish the frame in BUF and return to SEEK_HEADER_1 (R105): all 2N + 1 elements in one step (R46, R52). SCALED is
computed from the value being written to RAW. -/
def publish (inTake : Bool) (s : State) : State :=
  ((s.withCursor 0 (Nat.zero_le _)).withChannels (extractAll s) ((extractAll s).map (rescale s.cfg))).withOutputs inTake true

/-- COMPLETE under BYTE_GATED (R105): the byte is consumed and discarded. -/
def execComplete (_val : Byte) (s : State) : Outcome := .next (publish true s)

/-- COMPLETE under UNGATED (R105): nothing is consumed. -/
def execCompleteUngated (s : State) : Outcome := .next (publish false s)

end Sys2Proof.Machine
end

