-- ==== Sys2Proof/Machine/HeaderSync.lean ====
section
/-! DEFINITION. Header synchronisation (R90 to R93). The dispatch has compared the byte; a MISS leaves the cursor
where it is, also at 1 (R93, R94). -/

namespace Sys2Proof.Machine

/-- H1_MATCH (R90): `BUF[0] <- val`, CURSOR 1. -/
def execH1Match (val : Byte) (s : State) : Outcome := .next (appendByte 0 val 1 s (one_le_capacity s.cfg))

/-- H1_MISS (R91): the byte is consumed and lost. -/
def execH1Miss (_val : Byte) (s : State) : Outcome := .next (dropByte s)

/-- H2_MATCH (R92): `BUF[1] <- val`, CURSOR 2. -/
def execH2Match (val : Byte) (s : State) : Outcome := .next (appendByte 1 val 2 s (two_le_capacity s.cfg))

/-- H2_MISS (R93): the byte is consumed and lost, CURSOR does not return to 0. -/
def execH2Miss (_val : Byte) (s : State) : Outcome := .next (dropByte s)

end Sys2Proof.Machine
end

