-- ==== Sys2Proof/Machine/Poll.lean ====
section
/-! DEFINITION. The operations that do not depend on the cursor class: RESET, IDLE, NOBYTE (R81 to R83). -/

namespace Sys2Proof.Machine

/-- The state after RESET (R81, R151): CURSOR, every RAW and every SCALED element 0, BUF unchanged (R153), nothing
consumed or published. -/
def restart (s : State) : State :=
  ((s.withCursor 0 (Nat.zero_le _)).withChannels (List.replicate s.cfg.n 0) (List.replicate s.cfg.n 0)).withOutputs false false

/-- RESET (R81). -/
def execReset (s : State) : Outcome := .next (restart s)

/-- IDLE (R82). -/
def execIdle (s : State) : Outcome := .next (keepAll s)

/-- NOBYTE (R83). -/
def execNoByte (s : State) : Outcome := .next (keepAll s)

end Sys2Proof.Machine
end

