-- ==== Sys2Proof/Machine/Dispatch.lean ====
section
/-! DEFINITION. One arm per operation of the opcode table. -/

namespace Sys2Proof.Machine

def exec (i : Instr) (s : State) : Host.Outcome State Fault Refusal :=
  match i with
  | .reset => Sys2Proof.Machine.execReset s
  | .idle => Sys2Proof.Machine.execIdle s
  | .noByte => Sys2Proof.Machine.execNoByte s
  | .complete val => Sys2Proof.Machine.execComplete val s
  | .completeUngated => Sys2Proof.Machine.execCompleteUngated s
  | .h1Match val => Sys2Proof.Machine.execH1Match val s
  | .h1Miss val => Sys2Proof.Machine.execH1Miss val s
  | .h2Match val => Sys2Proof.Machine.execH2Match val s
  | .h2Miss val => Sys2Proof.Machine.execH2Miss val s
  | .fill val => Sys2Proof.Machine.execFill val s

end Sys2Proof.Machine
end

