-- ==== Sys2Proof/WellFormed.lean ====
section
/-! DEFINITION. Which operations exist in a configuration: the operand conditions of table T66 and the column
`config` of the opcode table (R66, R68, R74). -/

namespace Sys2Proof

/-- The operand and configuration conditions of an operation's row. -/
def Instr.wellFormed (cfg : Cfg) : Instr → Bool
  | .reset => true
  | .idle => true
  | .noByte => true
  | .complete _ => cfg.completionGate = .byteGated
  | .completeUngated => cfg.completionGate = .ungated
  | .h1Match val => val = cfg.headerByte1
  | .h1Miss val => val ≠ cfg.headerByte1
  | .h2Match val => val = cfg.headerByte2
  | .h2Miss val => val ≠ cfg.headerByte2
  | .fill _ => true

end Sys2Proof
end

