-- ==== Sys2Proof/Decode.lean ====
section
/-! DEFINITION. The dispatch word (R65), the operation map as the decoder (R66 to R68) and as the table (T66, R74),
the encoder, and `decodeTableWord`. -/

namespace Sys2Proof

/-! ### The fields of DW (table T65) -/

/-- `DW[12]`. -/
def rstField (dw : DispatchWord) : Bool := dw.getLsbD 12
/-- `DW[11]`. -/
def pollField (dw : DispatchWord) : Bool := dw.getLsbD 11
/-- `DW[10:9]`. -/
def clsField (dw : DispatchWord) : ClassCode := dw.extractLsb' 9 2
/-- `DW[8]`. -/
def inValidField (dw : DispatchWord) : Bool := dw.getLsbD 8
/-- `DW[7:0]`. -/
def inDataField (dw : DispatchWord) : Byte := dw.extractLsb' 0 8

/-- DW put together from its fields, `rst` in the high bit (R65). -/
def packDispatch (rst poll : Bool) (cls : ClassCode) (inValid : Bool) (inData : Byte) : DispatchWord :=
  BitVec.ofBool rst ++ BitVec.ofBool poll ++ cls ++ BitVec.ofBool inValid ++ inData

/-! ### The cursor class codes (R64) -/

/-- SEEK_HEADER_1. -/
def clsSeek1 : ClassCode := 0b00
/-- SEEK_HEADER_2. -/
def clsSeek2 : ClassCode := 0b01
/-- ACCUMULATE_PAYLOAD. -/
def clsAccumulate : ClassCode := 0b10
/-- FRAME_COMPLETE. -/
def clsComplete : ClassCode := 0b11

/-! ### The decoder -/

/-- The operation of a poll that has consumed `val` and is not completing, by cursor class (R85, tests 4 to 6). -/
def decodeConsumed (cfg : Cfg) (cls : ClassCode) (val : Byte) : Instr :=
  if cls = clsSeek1 then
    if val = cfg.headerByte1 then .h1Match val else .h1Miss val
  else if cls = clsSeek2 then
    if val = cfg.headerByte2 then .h2Match val else .h2Miss val
  else .fill val

/-- The operation map (R66 to R68) in its priority order. Every value of DW selects one operation (R67). -/
def decode (cfg : Cfg) (dw : DispatchWord) : Instr :=
  if rstField dw then .reset
  else if !pollField dw then .idle
  else if cfg.completionGate = .ungated ∧ clsField dw = clsComplete then .completeUngated
  else if !inValidField dw then .noByte
  else if clsField dw = clsComplete then .complete (inDataField dw)
  else decodeConsumed cfg (clsField dw) (inDataField dw)

/-- Why a number is no dispatch word; safe, nothing runs. -/
inductive BadWord where
  /-- R65, R71: DW has 13 bits and one fixed length; a bit above bit 12 is set. -/
  | widerThanDispatchWord
  deriving DecidableEq, Repr

/-- The decoder on any number of bits: a number that is no DW is rejected by name. -/
def decodeBits (cfg : Cfg) (w : Nat) : Except BadWord Instr :=
  if w < 2 ^ 13 then .ok (decode cfg (BitVec.ofNat 13 w)) else .error .widerThanDispatchWord

/-! ### The encoder -/

/-- A dispatch word of each operation: the row's fixed bits with `val` in `DW[7:0]`, every free bit 0 (table T66;
R68 for COMPLETE under UNGATED). -/
def encode : Instr → DispatchWord
  | .reset => 0x1000
  | .idle => 0x0000
  | .noByte => 0x0800
  | .complete val => 0x0F00 ||| val.setWidth 13
  | .completeUngated => 0x0E00
  | .h1Match val => 0x0900 ||| val.setWidth 13
  | .h1Miss val => 0x0900 ||| val.setWidth 13
  | .h2Match val => 0x0B00 ||| val.setWidth 13
  | .h2Miss val => 0x0B00 ||| val.setWidth 13
  | .fill val => 0x0D00 ||| val.setWidth 13

/-! ### The operation map as a table (T66, R68, R74) -/

/-- One row: DW matches when `DW & mask == pattern` and `in_data` is not the excluded byte (the extra condition). -/
structure Row where
  mnemonic : String
  pattern : DispatchWord
  mask : DispatchWord
  excluded : Option Byte
  deriving DecidableEq, Repr

/-- The row matches the word (R66). -/
def Row.accepts (r : Row) (dw : DispatchWord) : Bool :=
  dw &&& r.mask = r.pattern && r.excluded ≠ some (inDataField dw)

/-- The rows whose place in the priority order depends on the gate: NOBYTE then COMPLETE under BYTE_GATED (T66),
COMPLETE then NOBYTE under UNGATED (R68). -/
def gateRows : CompletionGate → List Row
  | .byteGated => [⟨"NOBYTE", 0x0800, 0x1900, none⟩, ⟨"COMPLETE", 0x0F00, 0x1F00, none⟩]
  | .ungated => [⟨"COMPLETE.UNGATED", 0x0E00, 0x1E00, none⟩, ⟨"NOBYTE", 0x0800, 0x1900, none⟩]

/-- The rows of a configuration in priority order (T66, R68); the low 8 bits of the MATCH rows' patterns are the
header constants (R74). -/
def operationMap (cfg : Cfg) : List Row :=
  [⟨"RESET", 0x1000, 0x1000, none⟩, ⟨"IDLE", 0x0000, 0x1800, none⟩] ++ gateRows cfg.completionGate ++
  [⟨"H1_MATCH", 0x0900 ||| cfg.headerByte1.setWidth 13, 0x1FFF, none⟩,
   ⟨"H1_MISS", 0x0900, 0x1F00, some cfg.headerByte1⟩,
   ⟨"H2_MATCH", 0x0B00 ||| cfg.headerByte2.setWidth 13, 0x1FFF, none⟩,
   ⟨"H2_MISS", 0x0B00, 0x1F00, some cfg.headerByte2⟩,
   ⟨"FILL", 0x0D00, 0x1F00, none⟩]

/-- The table's name of an operation (R74). -/
def Instr.mnemonic : Instr → String
  | .reset => "RESET"
  | .idle => "IDLE"
  | .noByte => "NOBYTE"
  | .complete _ => "COMPLETE"
  | .completeUngated => "COMPLETE.UNGATED"
  | .h1Match _ => "H1_MATCH"
  | .h1Miss _ => "H1_MISS"
  | .h2Match _ => "H2_MATCH"
  | .h2Miss _ => "H2_MISS"
  | .fill _ => "FILL"

/-! ### A word of the opcode table -/

/-- The gate under which a word of the opcode table is read (DESIGN CHOICE, log entry 7): UNGATED for a poll at
FRAME_COMPLETE without a byte, the one kind of word by which the row COMPLETE.UNGATED differs from COMPLETE's;
BYTE_GATED, the default, for every other. -/
def tableGate (dw : DispatchWord) : CompletionGate :=
  if !rstField dw && pollField dw && clsField dw = clsComplete && !inValidField dw then .ungated else .byteGated

/-- A configuration with what the opcode table presumes: the source's header bytes (R74) and the gate of the row. -/
def tableCfg (cfg : Cfg) (dw : DispatchWord) : Cfg :=
  { cfg with headerByte1 := 0x20, headerByte2 := 0x40, completionGate := tableGate dw }

/-- The bits of a table word, the bits above `nbits` dropped. -/
def tableWord (nbits w : Nat) : Nat := w % 2 ^ nbits

/-- What the decoder reads from a word of the opcode table, under the default instance as `tableCfg` reads it. -/
def decodeTableWord (nbits w : Nat) : Option Instr :=
  (decodeBits (tableCfg Cfg.default (BitVec.ofNat 13 (tableWord nbits w))) (tableWord nbits w)).toOption

end Sys2Proof
end

