-- ==== Sys2Proof/Machine/Fetch.lean ====
section
/-! DEFINITION. Operation selection, this hardware's fetch (R56, R64, R65, R80): the input levels of the edge, the
cursor class, the dispatch word, the end of the edge; and the placing of a table word where the next step reads it. -/

namespace Sys2Proof.Machine

/-- The code of CURSOR's class (R64). -/
def classOf (capacity cursor : Nat) : ClassCode :=
  if cursor = 0 then clsSeek1
  else if cursor = 1 then clsSeek2
  else if cursor = capacity then clsComplete
  else clsAccumulate

/-- The levels on the input ports at the next edge: those set for it, and else whatever the environment drives
(R35; log entry 1). -/
def pinsNow (s : State) : Pins :=
  match s.inputs with
  | [] => Config.environment s.clock
  | p :: _ => p

/-- DW, formed afresh from the inputs and the pre-step CURSOR (R65). -/
def dispatchWord (s : State) : DispatchWord :=
  packDispatch (pinsNow s).rst (pinsNow s).poll (classOf s.cfg.capacity s.cursor) (pinsNow s).inValid (pinsNow s).inData

/-- The operation the next step performs (R66 to R68). -/
def fetch (s : State) : Instr := decode s.cfg (dispatchWord s)

/-- The edge is over: its input levels are gone and the count of edges goes on. -/
def State.nextEdge (s : State) : State := { s with inputs := s.inputs.tail, clock := s.clock + 1 }

/-- The end of the edge, on an operation's answer. -/
def endOfEdge : Outcome → Outcome
  | .next s => .next s.nextEdge
  | .fault r => .fault r
  | .refused r => .refused r

/-- A cursor of the given class: the present one where it is of that class, else the class's least (R22). -/
def cursorOfClass (capacity : Nat) (cls : ClassCode) (cursor : Nat) : Nat :=
  if classOf capacity cursor = cls then cursor
  else if cls = clsSeek1 then 0
  else if cls = clsSeek2 then 1
  else if cls = clsComplete then capacity
  else 2

/-- It is in CURSOR's range. -/
theorem cursorOfClass_le {capacity cursor : Nat} (cls : ClassCode) (h : cursor ≤ capacity) (h2 : 2 ≤ capacity) :
    cursorOfClass capacity cls cursor ≤ capacity := by
  unfold cursorOfClass
  split_ifs <;> omega

/-- The input levels a dispatch word stands for (table T65). -/
def pinsOfWord (dw : DispatchWord) : Pins := ⟨rstField dw, pollField dw, inValidField dw, inDataField dw⟩

/-- The state with a dispatch word of the opcode table as what the next step dispatches on: the input levels set for
the next edge, CURSOR in the word's class, and the configuration as the table presumes it (log entries 1 and 7). -/
def placeWord (s : State) (dw : DispatchWord) : State :=
  { s with
    cfg := tableCfg s.cfg dw
    cursor := cursorOfClass s.cfg.capacity (clsField dw) s.cursor
    cursor_le := cursorOfClass_le _ s.cursor_le (two_le_capacity s.cfg)
    inputs := pinsOfWord dw :: s.inputs }

end Sys2Proof.Machine
end

