-- ==== Sys2Proof/Machine/Step.lean ====
section
/-! DEFINITION. The step: one rising edge of `clk` (R80, R86). -/

namespace Sys2Proof.Machine

/-- One edge: select the operation from the inputs and CURSOR, perform it, and end the edge (R80). -/
def step (s : State) : Host.Outcome State Fault Refusal := endOfEdge (exec (fetch s) s)

/-- The state with a table word as the next step's dispatch word. -/
def State.withFetchWord (s : State) (nbits w : Nat) : State := placeWord s (BitVec.ofNat 13 (tableWord nbits w))

end Sys2Proof.Machine
end

