-- ==== Sys2Proof/Machine/Flags.lean ====
section
/-! DEFINITION. Flags: the hardware has none (R26). What a step reports beside its state are the outputs `in_take`
(R84) and `frame_done` (R32); here are their combinational definitions, apart from the meanings that drive them. -/

namespace Sys2Proof.Machine

/-- `in_take` as a function of the inputs and CURSOR (R84). -/
def inTakeOf (cfg : Cfg) (cursor : Nat) (p : Pins) : Bool :=
  match cfg.completionGate with
  | .byteGated => !p.rst && p.poll && p.inValid
  | .ungated => !p.rst && p.poll && p.inValid && cursor != cfg.capacity

/-- The operation consumes a byte (R84, last sentence but three). -/
def consumes : Instr → Bool
  | .reset => false
  | .idle => false
  | .noByte => false
  | .complete _ => true
  | .completeUngated => false
  | .h1Match _ => true
  | .h1Miss _ => true
  | .h2Match _ => true
  | .h2Miss _ => true
  | .fill _ => true

/-- `frame_done` is 1 exactly in a step whose operation is COMPLETE (R32). -/
def publishes : Instr → Bool
  | .reset => false
  | .idle => false
  | .noByte => false
  | .complete _ => true
  | .completeUngated => true
  | .h1Match _ => false
  | .h1Miss _ => false
  | .h2Match _ => false
  | .h2Miss _ => false
  | .fill _ => false

end Sys2Proof.Machine
end

