-- ==== Sys2Proof/Machine/Source.lean ====
section
/-! DEFINITION. The byte source as the traces see it (R87): a first-in first-out queue of bytes owned by the
environment, around the step. The hardware itself has no such queue (log entry 8). -/

namespace Sys2Proof.Machine

/-- What the environment is free in at one step (R87). -/
structure EnvChoice where
  rst : Bool
  /-- Which steps are polls. -/
  poll : Bool
  /-- Whether it offers a byte it has. -/
  offer : Bool
  /-- The bytes appended to the tail before the step. -/
  append : List Byte
  /-- The level of `in_data` when no byte is offered; ignored by the hardware (R30, D16). -/
  idleData : Byte
  deriving DecidableEq, Repr

/-- The hardware and the bytes waiting in its byte source. -/
structure System where
  core : State
  queue : List Byte
  deriving DecidableEq, Repr

/-- The input levels of a step: `in_valid = 1` and `in_data = head(Q)` if the environment offers the head and has one
to offer, else `in_valid = 0` (R87). -/
def sourcePins (c : EnvChoice) (queue : List Byte) : Pins :=
  match c.offer, queue with
  | true, b :: _ => ⟨c.rst, c.poll, true, b⟩
  | _, _ => ⟨c.rst, c.poll, false, c.idleData⟩

/-- The queue after a step: the head removed if the step's `in_take` is 1 (R30, R87). -/
def queueAfter (inTake : Bool) (queue : List Byte) : List Byte := if inTake then queue.tail else queue

/-- One step of the hardware with its byte source. -/
def systemStep (c : EnvChoice) (y : System) : Host.Outcome System Fault Refusal :=
  match step (y.core.withInputs [sourcePins c (y.queue ++ c.append)]) with
  | .next s => .next ⟨s, queueAfter s.inTake (y.queue ++ c.append)⟩
  | .fault r => .fault r
  | .refused r => .refused r

end Sys2Proof.Machine
end

