-- ==== Sys2Proof/Machine/Ports.lean ====
section
/-! DEFINITION. The derived widths (R10, R119) and the output ports driven from the registers (R31, R122). -/

namespace Sys2Proof.Machine

/-- CW: the number of bits of CAPACITY written in binary (R10). CAPACITY is not 0, by R8. -/
def cursorWidth (cfg : Cfg) : Nat := Nat.log2 cfg.capacity + 1

/-- CURSOR as its CW-bit register holds it (R21). -/
def cursorBits (s : State) : BitVec (cursorWidth s.cfg) := BitVec.ofNat _ s.cursor

/-- The number of bits of a natural number written in binary, 0 for 0. -/
def bitLength (m : Nat) : Nat := if m = 0 then 0 else Nat.log2 m + 1

/-- The least two's-complement width that holds an integer. -/
def signedWidth (v : Int) : Nat := bitLength (if v < 0 then (-v - 1).toNat else v.toNat) + 1

/-- SW: the least two's-complement width that holds every result of RESCALE. The ends of the 16-bit domain give the
extreme results. It is 16 for the source's literals (R10); for others the spec says "the required width changes and must
be recomputed" (R119; DEDUCED, log entry 6). -/
def scaledWidth (cfg : Cfg) : Nat := max (signedWidth (rescaleInt cfg 0)) (signedWidth (rescaleInt cfg 65535))

/-- Port `raw_o[i]`, 0 <= i < N: RAW[i] (R31). -/
def rawO (s : State) (i : Nat) : Option Field := s.raw[i]?

/-- Port `scaled_o[i]`, 0 <= i < N: SCALED[i] as SW bits of two's complement (R31, R122). -/
def scaledO (s : State) (i : Nat) : Option (BitVec (scaledWidth s.cfg)) :=
  s.scaled[i]?.map (BitVec.ofInt (scaledWidth s.cfg))

end Sys2Proof.Machine
end

