-- ==== Sys2Proof/Machine/Trace.lean ====
section
/-! DEFINITION. Traces and runs (R72, R73, R168) and the transitions of CURSOR as a table (R89). -/

namespace Sys2Proof.Machine

/-- A token of a trace, one step (R72). -/
inductive Token where
  /-- `R`: rst = 1. -/
  | r
  /-- `I`: rst = 0, poll = 0. -/
  | i
  /-- `P-`: a poll with no byte ready. -/
  | pNone
  /-- `Pxx`: a poll with the byte xx ready. -/
  | p (byte : Byte)
  deriving DecidableEq, Repr

/-- The input levels of a token (R72). The levels that R72 calls irrelevant are low; the step ignores them (R30). -/
def tokenPins : Token → Pins
  | .r => ⟨true, false, false, 0⟩
  | .i => ⟨false, false, false, 0⟩
  | .pNone => ⟨false, true, false, 0⟩
  | .p byte => ⟨false, true, true, byte⟩

/-- The byte a token offers. -/
def tokenByte : Token → Option Byte
  | .r => none
  | .i => none
  | .pNone => none
  | .p byte => some byte

/-- The step of one token. -/
def stepToken (t : Token) (s : State) : Outcome := step (s.withInputs [tokenPins t])

/-- The outputs of a step (R13, R80). -/
structure Outputs where
  inTake : Bool
  frameDone : Bool
  deriving DecidableEq, Repr

/-- The outputs of the step that led to a state. -/
def outputsOf (s : State) : Outputs := ⟨s.inTake, s.frameDone⟩

/-- The answer of a run: the state after the last token and the outputs of every step (R168). -/
abbrev RunOutcome := Host.Outcome (State × List Outputs) Fault Refusal

/-- The outputs of one more step in front of a run's. -/
def consOutputs (o : Outputs) : RunOutcome → RunOutcome
  | .next (s, os) => .next (s, o :: os)
  | .fault r => .fault r
  | .refused r => .refused r

/-- A finite trace applied from a state (R168). -/
def runTrace : List Token → State → RunOutcome
  | [], s => .next (s, [])
  | t :: ts, s =>
    match stepToken t s with
    | .next s' => consOutputs (outputsOf s') (runTrace ts s')
    | .fault r => .fault r
    | .refused r => .refused r

/-- RAW and SCALED as they stand after each step of a run with `frame_done` = 1 (R32), first to last: the frames that a
reader of the ports sees published. -/
def publications : List Token → State → List (List Field × List Int)
  | [], _ => []
  | t :: ts, s =>
    match stepToken t s with
    | .next s' => if s'.frameDone then (s'.raw, s'.scaled) :: publications ts s' else publications ts s'
    | .fault _ => []
    | .refused _ => []

/-- The new CURSOR of an operation (table T89). -/
def nextCursor (op : Instr) (cursor : Nat) : Nat :=
  match op with
  | .reset => 0
  | .idle => cursor
  | .noByte => cursor
  | .complete _ => 0
  | .completeUngated => 0
  | .h1Match _ => 1
  | .h1Miss _ => cursor
  | .h2Match _ => 2
  | .h2Miss _ => cursor
  | .fill _ => cursor + 1

/-- The bytes of a whole frame (R60, R73): header, channel values low byte first, padding. -/
def frameBytes (cfg : Cfg) (values : List Field) (pad : List Byte) : List Byte :=
  cfg.headerByte1 :: cfg.headerByte2 ::
    (values.flatMap fun v => [v.extractLsb' 0 8, v.extractLsb' 8 8]) ++ pad

/-- The pad bytes of `FRAME(v0, ..., v(N-1))` without a list: all 0x00 (R73). -/
def zeroPad (cfg : Cfg) : List Byte := List.replicate (cfg.capacity - 2 - 2 * cfg.n) 0

/-- `FRAME(v0, ..., v(N-1); p1 ... pk)` (R73). -/
def frameTokens (cfg : Cfg) (values : List Field) (pad : List Byte) : List Token :=
  (frameBytes cfg values pad).map .p

/-- `STREAM(b0 ... bm)` from a given CURSOR (R73): under UNGATED a byte offered at FRAME_COMPLETE is not taken and is
offered again. -/
def streamTokens (cfg : Cfg) (cursor : Nat) : List Byte → List Token
  | [] => []
  | b :: bs =>
    if cfg.completionGate = .ungated ∧ cursor = cfg.capacity then
      .p b :: .p b :: streamTokens cfg (nextCursor (decodeConsumed cfg clsSeek1 b) 0) bs
    else
      .p b :: streamTokens cfg
        (nextCursor (decode cfg (packDispatch false true (classOf cfg.capacity cursor) true b)) cursor) bs

end Sys2Proof.Machine
end

