-- ==== Sys2Proof/Safety.lean ====
section
/-! DEFINITION. The invariants of R34 and what a claim calls a sound state, a sound start and an indistinguishable
pair of states. -/

namespace Sys2Proof.Machine

/-- The shape of a state: the ranges and lengths of R21, R23, R24, R25 (R34 (a)). -/
structure Shape (s : State) : Prop where
  /-- 0 <= CURSOR <= CAPACITY (R21); the type of State says it already. -/
  cursor_le : s.cursor ≤ s.cfg.capacity
  /-- RAW has N elements (R24). -/
  raw_length : s.raw.length = s.cfg.n
  /-- SCALED has N elements (R25). -/
  scaled_length : s.scaled.length = s.cfg.n
  /-- BUF is in canonical form. -/
  buf_wf : s.buf.wf = true
  /-- BUF has the addresses 0 to CAPACITY-1 only (R40). -/
  buf_range : ∀ c ∈ s.buf, c.1 < s.cfg.capacity

/-- The header in BUF is as accepted, and every address below CURSOR has been written (R34 (b), (c); R23). -/
structure HeaderKept (s : State) : Prop where
  /-- If CURSOR >= 1 then BUF[0] == HEADER_BYTE_1. -/
  first : 1 ≤ s.cursor → s.buf.read 0 = some s.cfg.headerByte1
  /-- If CURSOR >= 2 then BUF[1] == HEADER_BYTE_2. -/
  second : 2 ≤ s.cursor → s.buf.read 1 = some s.cfg.headerByte2
  /-- Every byte below CURSOR has been written. -/
  written : ∀ a, a < s.cursor → (s.buf.read a).isSome

/-- The channel registers hold a published frame, or the reset zeros (R34 (e)). -/
def ChannelsConsistent (s : State) : Prop :=
  s.scaled = s.raw.map (rescale s.cfg) ∨
    (s.raw = List.replicate s.cfg.n 0 ∧ s.scaled = List.replicate s.cfg.n 0)

/-- The invariants of R34 together. -/
structure Inv (s : State) : Prop where
  shape : Shape s
  header : HeaderKept s
  channels : ChannelsConsistent s

/-- Two states differ at most in what BUF holds at and above CURSOR and in the outputs of the step before (R23: such
content can never reach an output). -/
structure SameBelowCursor (s t : State) : Prop where
  cfg : s.cfg = t.cfg
  cursor : s.cursor = t.cursor
  raw : s.raw = t.raw
  scaled : s.scaled = t.scaled
  inputs : s.inputs = t.inputs
  clock : s.clock = t.clock
  bytes : ∀ a, a < s.cursor → byteAt s a = byteAt t a

/-! ### What an operation leaves alone, in the words of the statements -/

/-- The configuration (R27) and the model's own `inputs` and `clock` are unchanged. -/
def KeepsSetting (s t : State) : Prop := t.cfg = s.cfg ∧ t.inputs = s.inputs ∧ t.clock = s.clock

/-- RAW and SCALED are unchanged. -/
def KeepsChannels (s t : State) : Prop := t.raw = s.raw ∧ t.scaled = s.scaled

/-- Every byte of BUF reads as before. -/
def KeepsBuf (s t : State) : Prop := ∀ a, byteAt t a = byteAt s a

/-- Every byte of BUF reads as before, but the one at the given address. -/
def KeepsBufExcept (s t : State) (address : Nat) : Prop := ∀ a, a ≠ address → byteAt t a = byteAt s a

/-- The step's outputs are `in_take = x` and `frame_done = y`. -/
def Drives (t : State) (x y : Bool) : Prop := t.inTake = x ∧ t.frameDone = y

/-- Two input levels differ at most in what the step does not look at (R30, D16): everything when `rst = 1`,
`in_valid` and `in_data` when `poll = 0`, `in_data` when `in_valid = 0`. -/
def SameWhereLookedAt (p q : Pins) : Prop :=
  p.rst = q.rst ∧ (p.rst = false → p.poll = q.poll ∧ (p.poll = true → p.inValid = q.inValid ∧
    (p.inValid = true → p.inData = q.inData)))

/-- The tokens hold an accepted header (R94): a byte equal to HEADER_BYTE_1 and later one equal to HEADER_BYTE_2, the
first having been seen already if `seen`. -/
def holdsHeader (cfg : Cfg) (seen : Bool) : List Token → Bool
  | [] => false
  | .p b :: ts =>
    if seen then b == cfg.headerByte2 || holdsHeader cfg true ts
    else holdsHeader cfg (b == cfg.headerByte1) ts
  | .r :: ts => holdsHeader cfg seen ts
  | .i :: ts => holdsHeader cfg seen ts
  | .pNone :: ts => holdsHeader cfg seen ts

/-- The little-endian field of channel i of a frame's bytes (R60, R61): low byte at offset 2 + 2i. -/
def fieldOf (frame : List Byte) (i : Nat) : Field :=
  BitVec.ofNat 16 (256 * (frame.getD (3 + 2 * i) 0).toNat + (frame.getD (2 + 2 * i) 0).toNat)

/-- RAW as R110 gives it for a frame's bytes. -/
def frameRaw (cfg : Cfg) (frame : List Byte) : List Field := (List.range cfg.n).map (fieldOf frame)

/-- The bytes are one whole frame as the decoder takes it (R62): CAPACITY bytes that begin with the header. -/
def IsFrame (cfg : Cfg) (frame : List Byte) : Prop :=
  frame.length = cfg.capacity ∧ frame[0]? = some cfg.headerByte1 ∧ frame[1]? = some cfg.headerByte2

/-- The start-up requirement (R154): at least one RESET step before the first poll. -/
def startUpOk : List Token → Bool
  | [] => true
  | .r :: _ => true
  | .i :: ts => startUpOk ts
  | .pNone :: _ => false
  | .p _ :: _ => false

end Sys2Proof.Machine
end

