-- ==== Sys2Proof/Certificates/Slice0/Obligations.lean ====
section
/-! DEFINITION. The statements for the provers. In every frame below `inputs` and `clock` are the model's own fields
(log entries 1 and 14), and `inTake`, `frameDone` hold the outputs of the step (log entry 4). -/

open Sys2Proof Sys2Proof.Machine

/-! ### Encodings and the operation map -/

/-- Decoding the encoding of any well-formed operation gives it back, with every operand, in every configuration. -/
def Obligations.DecodeOfEncode : Prop :=
  ∀ (cfg : Cfg) (i : Instr), i.wellFormed cfg = true → decode cfg (encode i) = i

/-- Words of vector table V1, each with the operation it stands for. -/
def Obligations.DecodeSampleWords : Prop :=
  (∀ p ∈ [((0x1F20 : DispatchWord), Instr.reset), (0x0120, .idle), (0x0A40, .noByte), (0x0E00, .noByte),
      (0x0F20, .complete 0x20), (0x0920, .h1Match 0x20), (0x0940, .h1Miss 0x40), (0x0B40, .h2Match 0x40),
      (0x0B20, .h2Miss 0x20), (0x0DFF, .fill 0xFF)], decode Cfg.default p.1 = p.2) ∧
  (∀ p ∈ [((0x0E00 : DispatchWord), Instr.completeUngated), (0x0F20, .completeUngated), (0x0820, .noByte),
      (0x0D20, .fill 0x20)], decode { Cfg.default with completionGate := .ungated } p.1 = p.2)

/-- The operation selected by any dispatch word is one that exists in the configuration, with an operand its row
admits. -/
def Obligations.DecodedIsWellFormed : Prop :=
  ∀ (cfg : Cfg) (dw : DispatchWord), (decode cfg dw).wellFormed cfg = true

/-- R66, R68: the decoder selects the operation of the first row, in priority order, that accepts the word. -/
def Obligations.DecodeTakesFirstRow : Prop :=
  ∀ (cfg : Cfg) (dw : DispatchWord),
    ((operationMap cfg).find? fun r => r.accepts dw).map Row.mnemonic = some (decode cfg dw).mnemonic

/-- R67: with the extra conditions the nine patterns of table T66 are disjoint and cover every value of DW. -/
def Obligations.ExactlyOneRowAccepts : Prop :=
  ∀ (cfg : Cfg) (dw : DispatchWord), cfg.completionGate = .byteGated →
    ((operationMap cfg).filter fun r => r.accepts dw).length = 1

/-- A word of the opcode table, placed where the step dispatches, makes the very next step run exactly the operation
`decodeTableWord` reads from it (the model's own interface; log entry 7). A CAPACITY of 2 has no
ACCUMULATE_PAYLOAD class (R22), so no word of FILL can be placed there. -/
def Obligations.PlacedWordRunsNext : Prop :=
  ∀ (s : State) (nbits w : Nat) (i : Instr), 3 ≤ s.cfg.capacity → decodeTableWord nbits w = some i →
    fetch (s.withFetchWord nbits w) = i ∧
      step (s.withFetchWord nbits w) = endOfEdge (exec i (s.withFetchWord nbits w))

/-! ### The step -/

/-- A step performs the operation its dispatch word decodes to, which answers a next state, and then the edge is over:
the input levels of the edge are gone and the edge count is one more, nothing else. -/
def Obligations.StepRunsDecodedOperation : Prop :=
  ∀ (s : State) (i : Instr), decode s.cfg (dispatchWord s) = i →
    ∃ t, exec i s = .next t ∧ step s = .next { t with inputs := t.inputs.tail, clock := t.clock + 1 }

/-- R130, R86: the step answers a next state for every input and every state. -/
def Obligations.StepNeverStops : Prop :=
  ∀ s : State, ∃ t, step s = .next t

/-- R84: `in_take` is the given function of the inputs and CURSOR, and is 1 exactly for the operations that consume;
a consumed byte is `in_data`, and the selected operation has it as its operand. -/
def Obligations.InTakeAsSpecified : Prop :=
  ∀ s t : State, step s = .next t →
    t.inTake = inTakeOf s.cfg s.cursor (pinsNow s) ∧ t.inTake = consumes (fetch s) ∧
      (∀ val, (fetch s = .complete val ∨ fetch s = .h1Match val ∨ fetch s = .h1Miss val ∨ fetch s = .h2Match val ∨
        fetch s = .h2Miss val ∨ fetch s = .fill val) → val = (pinsNow s).inData)

/-- R32: `frame_done` is 1 exactly in a step whose operation is COMPLETE, and then RAW and SCALED hold the new values
from the end of that step. -/
def Obligations.FrameDoneExactlyOnComplete : Prop :=
  ∀ s t : State, step s = .next t →
    (t.frameDone = true ↔ (∃ val, fetch s = .complete val) ∨ fetch s = .completeUngated) ∧
    (t.frameDone = true → t.raw = extractAll s ∧ t.scaled = (extractAll s).map (rescale s.cfg))

/-- Table T89: the new CURSOR of every step, and the classes it leads from and to. -/
def Obligations.CursorFollowsTransitionTable : Prop :=
  ∀ s t : State, step s = .next t →
    t.cursor = nextCursor (fetch s) s.cursor ∧ t.cursor ≤ s.cfg.capacity ∧
    ((∃ v, fetch s = .h1Match v ∨ fetch s = .h1Miss v) → s.cursor = 0) ∧
    ((∃ v, fetch s = .h2Match v ∨ fetch s = .h2Miss v) → s.cursor = 1) ∧
    ((∃ v, fetch s = .fill v) → 2 ≤ s.cursor ∧ s.cursor < s.cfg.capacity) ∧
    ((∃ v, fetch s = .complete v) ∨ fetch s = .completeUngated → s.cursor = s.cfg.capacity)

/-- R53: between two COMPLETE steps RAW and SCALED do not change, RESET apart (R24, R25). -/
def Obligations.ChannelsChangeOnlyOnCompletion : Prop :=
  ∀ s t : State, step s = .next t → t.frameDone = false → (pinsNow s).rst = false → KeepsChannels s t

/-- R40: a step writes BUF at most at the address that equals the pre-step CURSOR, and no step changes the
configuration (R7). -/
def Obligations.StepStoresOnlyAtCursor : Prop :=
  ∀ s t : State, step s = .next t → KeepsBufExcept s t s.cursor ∧ t.cfg = s.cfg

/-- D16, R30, R70 (d): the step does not depend on inputs that it does not look at. -/
def Obligations.UnlookedInputsIgnored : Prop :=
  ∀ (s : State) (p q : Pins) (ps : List Pins), SameWhereLookedAt p q →
    step (s.withInputs (p :: ps)) = step (s.withInputs (q :: ps))

/-- R105, R68, R70 (e): at FRAME_COMPLETE the step does not depend on the value of the byte, and under UNGATED not on
whether there is one. -/
def Obligations.CompletionIgnoresTheByte : Prop :=
  ∀ (s : State) (p q : Pins) (ps : List Pins), s.cursor = s.cfg.capacity → p.rst = q.rst → p.poll = q.poll →
    (s.cfg.completionGate = .byteGated → p.inValid = q.inValid) →
    step (s.withInputs (p :: ps)) = step (s.withInputs (q :: ps))

/-! ### The operations: when each is selected, and what it does -/

/-- R81. That RAW and SCALED become 0 is the spec's decision D5. -/
def Obligations.ResetOperation : Prop :=
  (∀ s : State, fetch s = .reset ↔ (pinsNow s).rst = true) ∧
  ∀ s : State, ∃ t, exec .reset s = .next t ∧ t.cursor = 0 ∧ t.raw = List.replicate s.cfg.n 0 ∧
    t.scaled = List.replicate s.cfg.n 0 ∧ KeepsBuf s t ∧ KeepsSetting s t ∧ Drives t false false

/-- R82. -/
def Obligations.IdleOperation : Prop :=
  (∀ s : State, fetch s = .idle ↔ (pinsNow s).rst = false ∧ (pinsNow s).poll = false) ∧
  ∀ s : State, ∃ t, exec .idle s = .next t ∧ t.cursor = s.cursor ∧ KeepsChannels s t ∧ KeepsBuf s t ∧
    KeepsSetting s t ∧ Drives t false false

/-- R83. -/
def Obligations.NoByteOperation : Prop :=
  (∀ s : State, fetch s = .noByte ↔ (pinsNow s).rst = false ∧ (pinsNow s).poll = true ∧ (pinsNow s).inValid = false ∧
    (s.cfg.completionGate = .ungated → s.cursor ≠ s.cfg.capacity)) ∧
  ∀ s : State, ∃ t, exec .noByte s = .next t ∧ t.cursor = s.cursor ∧ KeepsChannels s t ∧ KeepsBuf s t ∧
    KeepsSetting s t ∧ Drives t false false

/-- R90. -/
def Obligations.HeaderOneMatchOperation : Prop :=
  (∀ (s : State) (val : Byte), fetch s = .h1Match val ↔ (pinsNow s).rst = false ∧ (pinsNow s).poll = true ∧
    (pinsNow s).inValid = true ∧ s.cursor = 0 ∧ (pinsNow s).inData = val ∧ val = s.cfg.headerByte1) ∧
  ∀ (s : State) (val : Byte), ∃ t, exec (.h1Match val) s = .next t ∧ byteAt t 0 = val ∧ t.cursor = 1 ∧
    KeepsBufExcept s t 0 ∧ KeepsChannels s t ∧ KeepsSetting s t ∧ Drives t true false

/-- R91. -/
def Obligations.HeaderOneMissOperation : Prop :=
  (∀ (s : State) (val : Byte), fetch s = .h1Miss val ↔ (pinsNow s).rst = false ∧ (pinsNow s).poll = true ∧
    (pinsNow s).inValid = true ∧ s.cursor = 0 ∧ (pinsNow s).inData = val ∧ val ≠ s.cfg.headerByte1) ∧
  ∀ (s : State) (val : Byte), ∃ t, exec (.h1Miss val) s = .next t ∧ t.cursor = s.cursor ∧ KeepsBuf s t ∧
    KeepsChannels s t ∧ KeepsSetting s t ∧ Drives t true false

/-- R92. -/
def Obligations.HeaderTwoMatchOperation : Prop :=
  (∀ (s : State) (val : Byte), fetch s = .h2Match val ↔ (pinsNow s).rst = false ∧ (pinsNow s).poll = true ∧
    (pinsNow s).inValid = true ∧ s.cursor = 1 ∧ (pinsNow s).inData = val ∧ val = s.cfg.headerByte2) ∧
  ∀ (s : State) (val : Byte), ∃ t, exec (.h2Match val) s = .next t ∧ byteAt t 1 = val ∧ t.cursor = 2 ∧
    KeepsBufExcept s t 1 ∧ KeepsChannels s t ∧ KeepsSetting s t ∧ Drives t true false

/-- R93. -/
def Obligations.HeaderTwoMissOperation : Prop :=
  (∀ (s : State) (val : Byte), fetch s = .h2Miss val ↔ (pinsNow s).rst = false ∧ (pinsNow s).poll = true ∧
    (pinsNow s).inValid = true ∧ s.cursor = 1 ∧ (pinsNow s).inData = val ∧ val ≠ s.cfg.headerByte2) ∧
  ∀ (s : State) (val : Byte), ∃ t, exec (.h2Miss val) s = .next t ∧ t.cursor = s.cursor ∧ KeepsBuf s t ∧
    KeepsChannels s t ∧ KeepsSetting s t ∧ Drives t true false

/-- R100; the premise of the second clause is the address range of BUF. -/
def Obligations.FillOperation : Prop :=
  (∀ (s : State) (val : Byte), fetch s = .fill val ↔ (pinsNow s).rst = false ∧
    (pinsNow s).poll = true ∧ (pinsNow s).inValid = true ∧ 2 ≤ s.cursor ∧ s.cursor ≤ s.cfg.capacity - 1 ∧
    (pinsNow s).inData = val) ∧
  ∀ (s : State) (val : Byte), s.cursor < s.cfg.capacity → ∃ t, exec (.fill val) s = .next t ∧
    byteAt t s.cursor = val ∧ t.cursor = s.cursor + 1 ∧ t.cursor ≤ s.cfg.capacity ∧ KeepsBufExcept s t s.cursor ∧
    KeepsChannels s t ∧ KeepsSetting s t ∧ Drives t true false

/-- FILL at CURSOR = CAPACITY, outside BUF, is refused by name: the MODEL's choice (log entries 5 and 13) for an
operation that the operation map never selects there. -/
def Obligations.FillOutsideBufferRefused : Prop :=
  ∀ (s : State) (val : Byte), s.cursor = s.cfg.capacity → exec (.fill val) s = .refused .cursorOutsideBuffer

/-- R105 under both gates, with R106 in its own arithmetic: when COMPLETE is selected, every channel's RAW and SCALED,
CURSOR 0, BUF unchanged, `frame_done`, and the byte consumed under BYTE_GATED and not under UNGATED. What RESCALE is
stands in RescaleIsTheIntegerMap. -/
def Obligations.CompleteOperation : Prop :=
  (∀ (s : State) (val : Byte), fetch s = .complete val ↔ s.cfg.completionGate = .byteGated ∧ (pinsNow s).rst = false ∧
    (pinsNow s).poll = true ∧ (pinsNow s).inValid = true ∧ s.cursor = s.cfg.capacity ∧ (pinsNow s).inData = val) ∧
  (∀ s : State, fetch s = .completeUngated ↔ s.cfg.completionGate = .ungated ∧ (pinsNow s).rst = false ∧
    (pinsNow s).poll = true ∧ s.cursor = s.cfg.capacity) ∧
  ∀ (s : State) (i : Instr) (take : Bool),
    ((∃ val, i = .complete val) ∧ take = true) ∨ (i = .completeUngated ∧ take = false) →
    ∃ t, exec i s = .next t ∧ t.cursor = 0 ∧ t.raw.length = s.cfg.n ∧ t.scaled.length = s.cfg.n ∧
    (∀ c, c < s.cfg.n → ∃ f : Field, t.raw[c]? = some f ∧
      f.toNat = 256 * (byteAt s (3 + 2 * c)).toNat + (byteAt s (2 + 2 * c)).toNat ∧
      t.scaled[c]? = some (rescale s.cfg f)) ∧
    KeepsBuf s t ∧ KeepsSetting s t ∧ Drives t take true

/-! ### The field extractor, the rescaler, the widths -/

/-- R61, R106: the field is 256 times the byte at 3 + 2i plus the byte at 2 + 2i, bit by bit, from addresses of BUF. -/
def Obligations.ExtractorIsLittleEndian : Prop :=
  ∀ (s : State) (i : Nat), i < s.cfg.n →
    3 + 2 * i < s.cfg.capacity ∧
    extract16 s i = ((byteAt s (3 + 2 * i)).setWidth 16 <<< 8) ||| (byteAt s (2 + 2 * i)).setWidth 16 ∧
    (extract16 s i).toNat = 256 * (byteAt s (3 + 2 * i)).toNat + (byteAt s (2 + 2 * i)).toNat ∧
    (∀ k, k < 8 → (extract16 s i).getLsbD k = (byteAt s (2 + 2 * i)).getLsbD k) ∧
    (∀ k, 8 ≤ k → k < 16 → (extract16 s i).getLsbD k = (byteAt s (3 + 2 * i)).getLsbD (k - 8))

/-- The division of R117: the quotient rounded toward zero, its remainder, and how it differs from floor division.
That "truncating" means toward zero for a negative quotient is the spec's own decision D10, "from general knowledge,
not in source" (log entry 11); what this and the next four statements say of negative values rests on it. -/
def Obligations.TdivRoundsTowardZero : Prop :=
  ∀ a b : Int, b ≠ 0 →
    tdiv a b = Int.tdiv a b ∧ tdiv a b = a.sign * b.sign * Int.fdiv |a| |b| ∧
    (a - b * tdiv a b = 0 ∨ (a - b * tdiv a b).sign = a.sign) ∧ (a - b * tdiv a b).natAbs < b.natAbs ∧
    (0 ≤ a → 0 < b → tdiv a b = Int.fdiv a b) ∧
    (a < 0 → 0 < b → tdiv a b = -(Int.fdiv (-a) b) ∧ (¬ b ∣ a → tdiv a b = Int.fdiv a b + 1))

/-- The map of R116 in every configuration, the product before the division, with the rule's example and the rows of
table T122 that the source states. For a negative product it rests on decision D10 (log entry 11). -/
def Obligations.RescaleIsTheIntegerMap : Prop :=
  (∀ (cfg : Cfg) (raw : Field), rescale cfg raw =
    cfg.toLow + Int.tdiv (((raw.toNat : Int) - cfg.fromLow) * (cfg.toHigh - cfg.toLow)) (cfg.fromHigh - cfg.fromLow)) ∧
  ∀ p ∈ [((1500 : Field), (127 : Int)), (1000, 0), (2000, 255), (1100, 25), (1200, 51), (1800, 204)],
    rescale Cfg.default p.1 = p.2

/-- R118: no clamping; with the source's literals the result is within 0..255 exactly for raw from 997 to 2003. The
spec derives this, and the values below 1000 rest on decision D10 (log entry 11). -/
def Obligations.RescaleWithinByteRange : Prop :=
  rescale Cfg.default 500 = -127 ∧ rescale Cfg.default 2500 = 382 ∧
  ∀ raw : Field, (0 ≤ rescale Cfg.default raw ∧ rescale Cfg.default raw ≤ 255) ↔ (997 ≤ raw.toNat ∧ raw.toNat ≤ 2003)

/-- R120: the least and the greatest result with the source's literals, and that all fit 16 bits. The spec derives
this, and the least result rests on decision D10 (log entry 11). -/
def Obligations.RescaleResultRange : Prop :=
  rescale Cfg.default 0 = -255 ∧ rescale Cfg.default 65535 = 16456 ∧
  ∀ raw : Field, -255 ≤ rescale Cfg.default raw ∧ rescale Cfg.default raw ≤ 16456 ∧
    -32768 ≤ rescale Cfg.default raw ∧ rescale Cfg.default raw ≤ 32767

/-- R121: non-decreasing; each result is taken by 3 or 4 consecutive raw values, with the three exceptions; the end
points are exact. The spec derives this, and the values below 1000 rest on decision D10 (log entry 11). -/
def Obligations.RescaleMonotoneWithPlateaus : Prop :=
  (∀ x y : Field, x.toNat ≤ y.toNat → rescale Cfg.default x ≤ rescale Cfg.default y) ∧
  (∀ v : Int, -255 < v → v < 16456 → v ≠ 0 → ∃ first count : Nat, (count = 3 ∨ count = 4) ∧ first + count ≤ 65536 ∧
    ∀ raw : Field, rescale Cfg.default raw = v ↔ (first ≤ raw.toNat ∧ raw.toNat < first + count)) ∧
  (∀ raw : Field, rescale Cfg.default raw = 0 ↔ (997 ≤ raw.toNat ∧ raw.toNat ≤ 1003)) ∧
  (∀ raw : Field, rescale Cfg.default raw = -255 ↔ raw = 0) ∧
  (∀ raw : Field, rescale Cfg.default raw = 16456 ↔ (raw = 65534 ∨ raw = 65535)) ∧
  rescale Cfg.default 1000 = 0 ∧ rescale Cfg.default 2000 = 255

/-- R122, R119: in every configuration the SW-bit pattern of a result, read as signed, is the result: nothing wraps;
SW is 16 and CW is 6 for the source's literals (R10). -/
def Obligations.StoredPatternIsExact : Prop :=
  (∀ (cfg : Cfg) (raw : Field), (BitVec.ofInt (scaledWidth cfg) (rescale cfg raw)).toInt = rescale cfg raw) ∧
  scaledWidth Cfg.default = 16 ∧ cursorWidth Cfg.default = 6

/-- R31, R122: after a completion each port `scaled_o[i]`, read as signed, is RESCALE of what `raw_o[i]` shows. The
port's width is 16 for the source's literals; for other constants it is the model's recomputation (log entry 6), since
"the required width changes and must be recomputed" (R119). -/
def Obligations.PortsShowPublishedFrame : Prop :=
  ∀ s t : State, step s = .next t → t.frameDone = true → ∀ i, i < s.cfg.n →
    ∃ (f : Field) (p : BitVec (scaledWidth t.cfg)), rawO t i = some f ∧ scaledO t i = some p ∧
      f = extract16 s i ∧ p.toInt = rescale t.cfg f

/-- R10, R21: CW is the least width that holds CAPACITY, and the CW-bit register holds CURSOR exactly. -/
def Obligations.CursorFitsItsRegister : Prop :=
  (∀ cfg : Cfg, cfg.capacity < 2 ^ cursorWidth cfg ∧ ∀ w, cfg.capacity < 2 ^ w → cursorWidth cfg ≤ w) ∧
  ∀ s : State, (cursorBits s).toNat = s.cursor

/-- R8, R9: a record of fields is a configuration exactly when it meets the two constraints, and else it is refused by
the name of the one it violates. -/
def Obligations.ConfigurationCheckedWhenBuilt : Prop :=
  ∀ f : CfgFields,
    (∀ c, Cfg.build f = .ok c → c.toCfgFields = f) ∧
    ((∃ c, Cfg.build f = .ok c) ↔ 2 + 2 * f.n ≤ f.capacity ∧ f.fromHigh ≠ f.fromLow) ∧
    (f.capacity < 2 + 2 * f.n → Cfg.build f = .error .capacityTooSmall) ∧
    (2 + 2 * f.n ≤ f.capacity → f.fromHigh = f.fromLow → Cfg.build f = .error .zeroSpan)

/-! ### Reset and the invariants -/

/-- The state after reset: CURSOR, every RAW[i] and SCALED[i] and the outputs are 0 (R151). The configuration and that
nothing is listed in BUF, so that each byte reads as the free value, are the MODEL's choices (log entries 2 and 3). -/
def Obligations.ResetStateValues : Prop :=
  State.reset.cursor = 0 ∧ State.reset.raw = List.replicate 6 0 ∧ State.reset.scaled = List.replicate 6 0 ∧
  Drives State.reset false false ∧ State.reset.cfg = Cfg.default ∧
  (∀ a, byteAt State.reset a = Config.powerUpByte a) ∧ exec .reset State.reset = .next State.reset

/-- The invariants of R34 hold after reset. -/
def Obligations.InvariantsHoldAtReset : Prop := Inv State.reset

/-- A RESET step establishes the invariants of R34 from every content of CURSOR, RAW, SCALED and BUF (R150, U5). -/
def Obligations.ResetEstablishesInvariants : Prop :=
  ∀ s t : State, s.buf.wf = true → (∀ c ∈ s.buf, c.1 < s.cfg.capacity) → (pinsNow s).rst = true → step s = .next t →
    Inv t

/-- Every step keeps the invariants of R34. -/
def Obligations.EveryStepKeepsInvariants : Prop :=
  ∀ s t : State, Inv s → step s = .next t → Inv t

/-- R23: what BUF holds at or above CURSOR, the unspecified reset content included, never reaches an output: two states
that differ only there take steps with equal outputs to states that differ only there. -/
def Obligations.UnwrittenBufferUnobservable : Prop :=
  ∀ s t s' : State, SameBelowCursor s t → step s = .next s' →
    ∃ t', step t = .next t' ∧ SameBelowCursor s' t' ∧ t'.inTake = s'.inTake ∧ t'.frameDone = s'.frameDone

/-! ### Runs -/

/-- R150, U4, U5: after a trace that begins with RESET, the outputs of every step, CURSOR, RAW and SCALED are the same
whatever the state at power-up was. -/
def Obligations.PowerUpStateUnobservable : Prop :=
  ∀ (s s' t : State) (ts : List Token) (os : List Outputs), s.cfg = s'.cfg → runTrace (.r :: ts) s = .next (t, os) →
    ∃ t', runTrace (.r :: ts) s' = .next (t', os) ∧ t'.cursor = t.cursor ∧ t'.raw = t.raw ∧ t'.scaled = t.scaled

/-- R86, R168: every trace runs to its end from every state. R150, R154: the outputs of one that meets the start-up
requirement are the same whatever the state at power-up was. -/
def Obligations.StartedTraceNeverStops : Prop :=
  (∀ (s : State) (ts : List Token), ∃ t os, runTrace ts s = .next (t, os) ∧ os.length = ts.length) ∧
  ∀ (s s' t t' : State) (ts : List Token) (os os' : List Outputs), s.cfg = s'.cfg → startUpOk ts = true →
    runTrace ts s = .next (t, os) → runTrace ts s' = .next (t', os') → os' = os

/-- R94: from SEEK_HEADER_1, bytes other than HEADER_BYTE_1, then it, then bytes other than HEADER_BYTE_2, then it,
lead to CURSOR 2 with the header in BUF, every byte consumed and no channel changed. -/
def Obligations.AcceptedHeader : Prop :=
  ∀ (s : State) (before between : List Byte), s.cursor = 0 → (∀ b ∈ before, b ≠ s.cfg.headerByte1) →
    (∀ b ∈ between, b ≠ s.cfg.headerByte2) →
    ∃ t os, runTrace ((before ++ [s.cfg.headerByte1] ++ between ++ [s.cfg.headerByte2]).map .p) s = .next (t, os) ∧
      t.cursor = 2 ∧ byteAt t 0 = s.cfg.headerByte1 ∧ byteAt t 1 = s.cfg.headerByte2 ∧
      (∀ a, 2 ≤ a → byteAt t a = byteAt s a) ∧ KeepsChannels s t ∧ ∀ o ∈ os, o = ⟨true, false⟩

/-- R95 (a): from SEEK_HEADER_1 a trace without RESET and without an accepted header completes no frame and leaves RAW
and SCALED as they were. -/
def Obligations.NoHeaderNoFrame : Prop :=
  ∀ (s : State) (ts : List Token), s.cursor = 0 → (∀ tok ∈ ts, tok ≠ .r) → holdsHeader s.cfg false ts = false →
    ∃ t os, runTrace ts s = .next (t, os) ∧ t.cursor ≤ 1 ∧ KeepsChannels s t ∧ ∀ o ∈ os, o.frameDone = false

/-- R95 (b), (d): in SEEK_HEADER_2, without RESET and without a byte equal to HEADER_BYTE_2, any trace leaves CURSOR at
1 and BUF, RAW and SCALED as they were. -/
def Obligations.StallInSeekHeaderTwo : Prop :=
  ∀ (s : State) (ts : List Token), s.cursor = 1 → (∀ tok ∈ ts, tok ≠ .r ∧ tok ≠ .p s.cfg.headerByte2) →
    ∃ t os, runTrace ts s = .next (t, os) ∧ t.cursor = 1 ∧ KeepsBuf s t ∧ KeepsChannels s t ∧
      ∀ o ∈ os, o.frameDone = false

/-- R100, R102: in ACCUMULATE_PAYLOAD each consumed byte, whatever it is, is stored at the next address, up to
CAPACITY, and RAW and SCALED keep the frame before (R101). -/
def Obligations.PayloadStoredInOrder : Prop :=
  ∀ (s : State) (bs : List Byte), 2 ≤ s.cursor → s.cursor + bs.length ≤ s.cfg.capacity →
    ∃ t os, runTrace (bs.map .p) s = .next (t, os) ∧ t.cursor = s.cursor + bs.length ∧
      (∀ k b, bs[k]? = some b → byteAt t (s.cursor + k) = b) ∧
      (∀ a, a < s.cursor ∨ s.cursor + bs.length ≤ a → byteAt t a = byteAt s a) ∧
      KeepsChannels s t ∧ ∀ o ∈ os, o = ⟨true, false⟩

/-- R107, R82, R83: under BYTE_GATED a complete frame waits, unpublished, through any idle steps and polls without a
byte. -/
def Obligations.CompletionWaitsForByte : Prop :=
  ∀ (s : State) (ts : List Token), s.cfg.completionGate = .byteGated → s.cursor = s.cfg.capacity →
    (∀ tok ∈ ts, tok = .i ∨ tok = .pNone) →
    ∃ t os, runTrace ts s = .next (t, os) ∧ t.cursor = s.cfg.capacity ∧ KeepsBuf s t ∧ KeepsChannels s t ∧
      ∀ o ∈ os, o = ⟨false, false⟩

/-- R110, which the spec derives, with R107: from CURSOR 0, a trace without RESET whose bytes are exactly a whole frame,
however they are spread among idle steps and polls without a byte, then any idle steps and polls that are not eligible,
and then an eligible poll, publish exactly the frame's fields and their rescaled values, under both gates. -/
def Obligations.FramePublished : Prop :=
  ∀ (s : State) (ts waits : List Token) (last : Byte) (tok : Token), s.cursor = 0 → (∀ x ∈ ts, x ≠ .r) →
    IsFrame s.cfg (ts.filterMap tokenByte ++ [last]) →
    (∀ x ∈ waits, x = .i ∨ (s.cfg.completionGate = .byteGated ∧ x = .pNone)) →
    ((∃ b, tok = .p b) ∨ (s.cfg.completionGate = .ungated ∧ tok = .pNone)) →
    ∃ t os, runTrace (ts ++ [.p last] ++ waits ++ [tok]) s = .next (t, os) ∧ t.cursor = 0 ∧
      t.raw = frameRaw s.cfg (ts.filterMap tokenByte ++ [last]) ∧
      t.scaled = (frameRaw s.cfg (ts.filterMap tokenByte ++ [last])).map (rescale s.cfg) ∧ t.frameDone = true ∧
      (t.inTake = true ↔ s.cfg.completionGate = .byteGated)

/-- R111 under BYTE_GATED: of two frames back to back, where no later byte of the second equals HEADER_BYTE_1, the
first is published by the second's first byte and the second is lost. -/
def Obligations.GatedLosesSecondFrame : Prop :=
  ∀ (s : State) (first second : List Byte), s.cfg.completionGate = .byteGated → s.cursor = 0 → IsFrame s.cfg first →
    IsFrame s.cfg second → (∀ b ∈ second.tail, b ≠ s.cfg.headerByte1) →
    ∃ t os, runTrace ((first ++ second).map .p) s = .next (t, os) ∧ t.cursor = 0 ∧ t.raw = frameRaw s.cfg first ∧
      t.scaled = (frameRaw s.cfg first).map (rescale s.cfg)

/-- R111, R73 under UNGATED: of any number of frames back to back, and a poll after them, every frame is published, in
its order and with its own fields; before that poll the last frame waits, and after it CURSOR is 0. -/
def Obligations.UngatedDecodesBackToBack : Prop :=
  ∀ (s : State) (frames : List (List Byte)) (tok : Token), s.cfg.completionGate = .ungated → s.cursor = 0 →
    (∀ f ∈ frames, IsFrame s.cfg f) → (tok = .pNone ∨ ∃ b, tok = .p b) →
    publications (streamTokens s.cfg 0 frames.flatten ++ [tok]) s =
      frames.map (fun f => (frameRaw s.cfg f, (frameRaw s.cfg f).map (rescale s.cfg))) ∧
    ∃ t os u ou, runTrace (streamTokens s.cfg 0 frames.flatten) s = .next (t, os) ∧
      runTrace [tok] t = .next (u, ou) ∧ (frames ≠ [] → t.cursor = s.cfg.capacity ∧ u.cursor = 0)

/-- R87, R47: a step removes the head of the byte source's queue exactly when `in_take` is 1, and then the head was
offered; otherwise the queue keeps every byte in its order. -/
def Obligations.ByteSourceConserved : Prop :=
  ∀ (c : EnvChoice) (y z : System), systemStep c y = .next z →
    (z.core.inTake = true → ∃ b, y.queue ++ c.append = b :: z.queue ∧ c.offer = true ∧ c.poll = true) ∧
    (z.core.inTake = false → z.queue = y.queue ++ c.append)
end

