-- ==== Sys2Proof/Laws/Decode.lean ====
section
/-! SUPPORT. The fields of a dispatch word put together from them. -/

namespace Sys2Proof

/-- Every bit of a packed dispatch word (table T65). -/
theorem getLsbD_pack (rst poll : Bool) (cls : ClassCode) (inValid : Bool) (inData : Byte) (i : Nat) :
    (packDispatch rst poll cls inValid inData).getLsbD i =
      if i < 8 then inData.getLsbD i else if i < 9 then inValid
      else if i < 11 then cls.getLsbD (i - 9) else if i < 12 then poll else (decide (i = 12) && rst) := by
  change BitVec.getLsbD (w := 1 + 1 + 2 + 1 + 8)
    (BitVec.ofBool rst ++ BitVec.ofBool poll ++ cls ++ BitVec.ofBool inValid ++ inData) i = _
  simp only [BitVec.getLsbD_append, BitVec.getLsbD_ofBool]
  have : i < 8 ∨ i = 8 ∨ i = 9 ∨ i = 10 ∨ i = 11 ∨ i = 12 ∨ 13 ≤ i := by omega
  rcases this with h | rfl | rfl | rfl | rfl | rfl | h
  · simp [h]
  · simp
  · simp
  · simp
  · simp
  · simp
  · have : ¬ i < 8 ∧ ¬ i < 9 ∧ ¬ i < 11 ∧ ¬ i < 12 ∧ i ≠ 12 ∧ i - 8 ≠ 0 ∧ ¬ i - 8 - 1 < 2 ∧ i - 8 - 1 - 2 ≠ 0 ∧
        i - 8 - 1 - 2 - 1 ≠ 0 ∧ ¬ i - 8 < 1 ∧ ¬ i - 8 - 1 - 2 < 1 := by omega
    simp [this]

variable (rst poll : Bool) (cls : ClassCode) (inValid : Bool) (inData : Byte)

@[simp] theorem rstField_pack : rstField (packDispatch rst poll cls inValid inData) = rst := by
  rw [rstField, getLsbD_pack]; rfl

@[simp] theorem pollField_pack : pollField (packDispatch rst poll cls inValid inData) = poll := by
  rw [pollField, getLsbD_pack]; rfl

@[simp] theorem inValidField_pack : inValidField (packDispatch rst poll cls inValid inData) = inValid := by
  rw [inValidField, getLsbD_pack]; rfl

@[simp] theorem clsField_pack : clsField (packDispatch rst poll cls inValid inData) = cls := by
  apply BitVec.eq_of_getLsbD_eq
  intro i hi
  have : ¬ 9 + i < 8 ∧ ¬ 9 + i < 9 ∧ 9 + i < 11 := by omega
  simp [clsField, getLsbD_pack, hi, this]

@[simp] theorem inDataField_pack : inDataField (packDispatch rst poll cls inValid inData) = inData := by
  apply BitVec.eq_of_getLsbD_eq
  intro i hi
  simp [inDataField, getLsbD_pack, hi]

/-- Every dispatch word is put together from its fields. -/
theorem pack_fields (dw : DispatchWord) :
    packDispatch (rstField dw) (pollField dw) (clsField dw) (inValidField dw) (inDataField dw) = dw := by
  apply BitVec.eq_of_getLsbD_eq
  intro i hi
  rw [getLsbD_pack]
  simp only [rstField, pollField, clsField, inValidField, inDataField, BitVec.getLsbD_extractLsb']
  interval_cases i <;> simp

end Sys2Proof
end

