-- ==== Sys2Proof/Laws/Memory.lean ====
section
/-! SUPPORT. The laws of BUF as a list of cells: read after write, the other addresses, and the canonical form. -/

namespace Sys2Proof.Machine

@[simp] theorem Memory.read_nil (a : Nat) : Memory.read [] a = none := rfl

theorem Memory.read_cons (b : Nat) (v : Byte) (m : Memory) (a : Nat) :
    Memory.read ((b, v) :: m) a = if b = a then some v else Memory.read m a := rfl

@[simp] theorem Memory.read_write_same (m : Memory) (a : Nat) (v : Byte) : (m.write a v).read a = some v := by
  induction m with
  | nil => simp [Memory.write, Memory.read]
  | cons c rest ih =>
    obtain ⟨b, u⟩ := c
    rcases lt_trichotomy a b with h | h | h
    · simp [Memory.write, Memory.read, h]
    · simp [Memory.write, Memory.read, h]
    · have hb : b ≠ a := by omega
      simpa [Memory.write, Memory.read, Nat.not_lt.mpr h.le, hb.symm, hb] using ih

theorem Memory.read_write_other (m : Memory) {a b : Nat} (v : Byte) (h : b ≠ a) :
    (m.write a v).read b = m.read b := by
  induction m with
  | nil => simp [Memory.write, Memory.read, h.symm]
  | cons c rest ih =>
    obtain ⟨k, u⟩ := c
    simp only [Memory.write]
    split
    · simp [Memory.read, h.symm]
    · split
      · subst a
        simp [Memory.read, h.symm]
      · simp [Memory.read, ih]

theorem Memory.wf_cons {c : Host.Cell} {m : Memory} :
    Memory.wf (c :: m) = true ↔ (∀ d ∈ m.head?, c.1 < d.1) ∧ m.wf = true := by
  cases m with
  | nil => simp [Memory.wf]
  | cons d rest => simp [Memory.wf]

/-- The first address after a write is the written one or the old first one. -/
theorem Memory.head_write {m : Memory} {a : Nat} {v : Byte} {d : Host.Cell}
    (h : d ∈ (m.write a v).head?) : d.1 = a ∨ d ∈ m.head? := by
  cases m with
  | nil => simp [Memory.write] at h; simp [← h]
  | cons c rest =>
    obtain ⟨b, u⟩ := c
    simp only [Memory.write] at h
    split at h
    · simp at h; simp [← h]
    · split at h
      · simp at h; simp [← h]
      · exact .inr (by simpa using h)

/-- A write keeps the canonical form. -/
theorem Memory.wf_write {m : Memory} (a : Nat) (v : Byte) (h : m.wf = true) : (m.write a v).wf = true := by
  induction m with
  | nil => rfl
  | cons c rest ih =>
    obtain ⟨b, u⟩ := c
    obtain ⟨hlt, hrest⟩ := Memory.wf_cons.mp h
    simp only [Memory.write]
    split
    · exact Memory.wf_cons.mpr ⟨by simpa, h⟩
    · split
      · subst a
        exact Memory.wf_cons.mpr ⟨hlt, hrest⟩
      · refine Memory.wf_cons.mpr ⟨fun d hd => ?_, ih hrest⟩
        rcases Memory.head_write hd with hda | hda
        · simp only [hda]; omega
        · exact hlt d hda

/-- The cells after a write are the written one and old ones. -/
theorem Memory.mem_write {m : Memory} {a : Nat} {v : Byte} {c : Host.Cell} (h : c ∈ m.write a v) :
    c = (a, v) ∨ c ∈ m := by
  induction m with
  | nil => simp [Memory.write] at h; exact .inl h
  | cons d rest ih =>
    obtain ⟨b, u⟩ := d
    simp only [Memory.write] at h
    split at h
    · simpa using h
    · split at h
      · simp only [List.mem_cons] at h ⊢; tauto
      · simp only [List.mem_cons] at h ⊢
        rcases h with h | h
        · exact .inr (.inl h)
        · rcases ih h with h | h <;> tauto

/-- The memory of the reset state has the canonical form. -/
theorem Memory.wf_reset : State.reset.buf.wf = true := rfl

/-- In canonical form the first address is below every later one. -/
theorem Memory.read_none_of_below {m : Memory} {a : Nat} (hm : m.wf = true) (h : ∀ d ∈ m.head?, a < d.1) :
    m.read a = none := by
  induction m with
  | nil => rfl
  | cons c rest ih =>
    obtain ⟨b, u⟩ := c
    obtain ⟨hlt, hrest⟩ := Memory.wf_cons.mp hm
    have hab : a < b := by simpa using h
    have : b ≠ a := by omega
    simp only [Memory.read, this, if_false]
    exact ih hrest fun d hd => hab.trans (hlt d hd)

/-- Canonical memories that read alike at every address are equal data. -/
theorem Memory.ext_of_read {m m' : Memory} (h : m.wf = true) (h' : m'.wf = true) (hr : ∀ a, m.read a = m'.read a) :
    m = m' := by
  induction m generalizing m' with
  | nil =>
    cases m' with
    | nil => rfl
    | cons c _ => have := hr c.1; simp [Memory.read] at this
  | cons c rest ih =>
    obtain ⟨b, u⟩ := c
    cases m' with
    | nil => have := hr b; simp [Memory.read] at this
    | cons c' rest' =>
      obtain ⟨b', u'⟩ := c'
      obtain ⟨hlt, hrest⟩ := Memory.wf_cons.mp h
      obtain ⟨hlt', hrest'⟩ := Memory.wf_cons.mp h'
      have hb : b = b' := by
        rcases lt_trichotomy b b' with hb | hb | hb
        · have := hr b
          rw [Memory.read_none_of_below h' (by simpa using hb)] at this
          simp [Memory.read] at this
        · exact hb
        · have := hr b'
          rw [Memory.read_none_of_below h (by simpa using hb)] at this
          simp [Memory.read] at this
      subst hb
      have hu : u = u' := by simpa [Memory.read] using hr b
      subst hu
      refine congrArg _ (ih hrest hrest' fun a => ?_)
      by_cases ha : b = a
      · subst ha
        rw [Memory.read_none_of_below hrest hlt, Memory.read_none_of_below hrest' hlt']
      · simpa [Memory.read, ha] using hr a

end Sys2Proof.Machine
end

