-- ==== Sys2Proof/Laws/State.lean ====
section
/-! SUPPORT. One lemma per field per update of `State`, so that no proof unfolds a record update. -/

namespace Sys2Proof.Machine

variable (s : State)

@[simp] theorem State.withCursor_cfg (c : Nat) (h : c ≤ s.cfg.capacity) : (s.withCursor c h).cfg = s.cfg := rfl
@[simp] theorem State.withCursor_cursor (c : Nat) (h : c ≤ s.cfg.capacity) : (s.withCursor c h).cursor = c := rfl
@[simp] theorem State.withCursor_buf (c : Nat) (h : c ≤ s.cfg.capacity) : (s.withCursor c h).buf = s.buf := rfl
@[simp] theorem State.withCursor_raw (c : Nat) (h : c ≤ s.cfg.capacity) : (s.withCursor c h).raw = s.raw := rfl
@[simp] theorem State.withCursor_scaled (c : Nat) (h : c ≤ s.cfg.capacity) : (s.withCursor c h).scaled = s.scaled := rfl
@[simp] theorem State.withCursor_inTake (c : Nat) (h : c ≤ s.cfg.capacity) : (s.withCursor c h).inTake = s.inTake := rfl
@[simp] theorem State.withCursor_frameDone (c : Nat) (h : c ≤ s.cfg.capacity) : (s.withCursor c h).frameDone = s.frameDone := rfl
@[simp] theorem State.withCursor_inputs (c : Nat) (h : c ≤ s.cfg.capacity) : (s.withCursor c h).inputs = s.inputs := rfl
@[simp] theorem State.withCursor_clock (c : Nat) (h : c ≤ s.cfg.capacity) : (s.withCursor c h).clock = s.clock := rfl

@[simp] theorem State.withChannels_cfg (r : List Field) (q : List Int) : (s.withChannels r q).cfg = s.cfg := rfl
@[simp] theorem State.withChannels_cursor (r : List Field) (q : List Int) : (s.withChannels r q).cursor = s.cursor := rfl
@[simp] theorem State.withChannels_buf (r : List Field) (q : List Int) : (s.withChannels r q).buf = s.buf := rfl
@[simp] theorem State.withChannels_raw (r : List Field) (q : List Int) : (s.withChannels r q).raw = r := rfl
@[simp] theorem State.withChannels_scaled (r : List Field) (q : List Int) : (s.withChannels r q).scaled = q := rfl
@[simp] theorem State.withChannels_inTake (r : List Field) (q : List Int) : (s.withChannels r q).inTake = s.inTake := rfl
@[simp] theorem State.withChannels_frameDone (r : List Field) (q : List Int) : (s.withChannels r q).frameDone = s.frameDone := rfl
@[simp] theorem State.withChannels_inputs (r : List Field) (q : List Int) : (s.withChannels r q).inputs = s.inputs := rfl
@[simp] theorem State.withChannels_clock (r : List Field) (q : List Int) : (s.withChannels r q).clock = s.clock := rfl

@[simp] theorem State.withOutputs_cfg (x y : Bool) : (s.withOutputs x y).cfg = s.cfg := rfl
@[simp] theorem State.withOutputs_cursor (x y : Bool) : (s.withOutputs x y).cursor = s.cursor := rfl
@[simp] theorem State.withOutputs_buf (x y : Bool) : (s.withOutputs x y).buf = s.buf := rfl
@[simp] theorem State.withOutputs_raw (x y : Bool) : (s.withOutputs x y).raw = s.raw := rfl
@[simp] theorem State.withOutputs_scaled (x y : Bool) : (s.withOutputs x y).scaled = s.scaled := rfl
@[simp] theorem State.withOutputs_inTake (x y : Bool) : (s.withOutputs x y).inTake = x := rfl
@[simp] theorem State.withOutputs_frameDone (x y : Bool) : (s.withOutputs x y).frameDone = y := rfl
@[simp] theorem State.withOutputs_inputs (x y : Bool) : (s.withOutputs x y).inputs = s.inputs := rfl
@[simp] theorem State.withOutputs_clock (x y : Bool) : (s.withOutputs x y).clock = s.clock := rfl

@[simp] theorem State.withInputs_cfg (ps : List Pins) : (s.withInputs ps).cfg = s.cfg := rfl
@[simp] theorem State.withInputs_cursor (ps : List Pins) : (s.withInputs ps).cursor = s.cursor := rfl
@[simp] theorem State.withInputs_buf (ps : List Pins) : (s.withInputs ps).buf = s.buf := rfl
@[simp] theorem State.withInputs_raw (ps : List Pins) : (s.withInputs ps).raw = s.raw := rfl
@[simp] theorem State.withInputs_scaled (ps : List Pins) : (s.withInputs ps).scaled = s.scaled := rfl
@[simp] theorem State.withInputs_inTake (ps : List Pins) : (s.withInputs ps).inTake = s.inTake := rfl
@[simp] theorem State.withInputs_frameDone (ps : List Pins) : (s.withInputs ps).frameDone = s.frameDone := rfl
@[simp] theorem State.withInputs_inputs (ps : List Pins) : (s.withInputs ps).inputs = ps := rfl
@[simp] theorem State.withInputs_clock (ps : List Pins) : (s.withInputs ps).clock = s.clock := rfl

@[simp] theorem State.withByte_cfg (a : Nat) (v : Byte) : (s.withByte a v).cfg = s.cfg := rfl
@[simp] theorem State.withByte_cursor (a : Nat) (v : Byte) : (s.withByte a v).cursor = s.cursor := rfl
@[simp] theorem State.withByte_buf (a : Nat) (v : Byte) : (s.withByte a v).buf = s.buf.write a v := rfl
@[simp] theorem State.withByte_raw (a : Nat) (v : Byte) : (s.withByte a v).raw = s.raw := rfl
@[simp] theorem State.withByte_scaled (a : Nat) (v : Byte) : (s.withByte a v).scaled = s.scaled := rfl
@[simp] theorem State.withByte_inTake (a : Nat) (v : Byte) : (s.withByte a v).inTake = s.inTake := rfl
@[simp] theorem State.withByte_frameDone (a : Nat) (v : Byte) : (s.withByte a v).frameDone = s.frameDone := rfl
@[simp] theorem State.withByte_inputs (a : Nat) (v : Byte) : (s.withByte a v).inputs = s.inputs := rfl
@[simp] theorem State.withByte_clock (a : Nat) (v : Byte) : (s.withByte a v).clock = s.clock := rfl

@[simp] theorem State.nextEdge_cfg : (s.nextEdge).cfg = s.cfg := rfl
@[simp] theorem State.nextEdge_cursor : (s.nextEdge).cursor = s.cursor := rfl
@[simp] theorem State.nextEdge_buf : (s.nextEdge).buf = s.buf := rfl
@[simp] theorem State.nextEdge_raw : (s.nextEdge).raw = s.raw := rfl
@[simp] theorem State.nextEdge_scaled : (s.nextEdge).scaled = s.scaled := rfl
@[simp] theorem State.nextEdge_inTake : (s.nextEdge).inTake = s.inTake := rfl
@[simp] theorem State.nextEdge_frameDone : (s.nextEdge).frameDone = s.frameDone := rfl
@[simp] theorem State.nextEdge_inputs : (s.nextEdge).inputs = s.inputs.tail := rfl
@[simp] theorem State.nextEdge_clock : (s.nextEdge).clock = s.clock + 1 := rfl

end Sys2Proof.Machine
end

