-- ==== Sys2Proof/Laws/Ops.lean ====
section
/-! SUPPORT. What each shared operation does, once: reading one byte after an update, and the fields after `appendByte`,
`dropByte`, `keepAll` and `publish`. -/

namespace Sys2Proof.Machine

variable (s : State)

@[simp] theorem byteAt_withCursor (c : Nat) (h : c ≤ s.cfg.capacity) (a : Nat) : byteAt (s.withCursor c h) a = byteAt s a := rfl
@[simp] theorem byteAt_withChannels (r : List Field) (q : List Int) (a : Nat) :
    byteAt (s.withChannels r q) a = byteAt s a := rfl
@[simp] theorem byteAt_withOutputs (x y : Bool) (a : Nat) : byteAt (s.withOutputs x y) a = byteAt s a := rfl
@[simp] theorem byteAt_withInputs (ps : List Pins) (a : Nat) : byteAt (s.withInputs ps) a = byteAt s a := rfl
@[simp] theorem byteAt_nextEdge (a : Nat) : byteAt s.nextEdge a = byteAt s a := rfl

@[simp] theorem byteAt_withByte_same (a : Nat) (v : Byte) : byteAt (s.withByte a v) a = v := by
  simp [byteAt]

theorem byteAt_withByte_other {a b : Nat} (v : Byte) (h : b ≠ a) : byteAt (s.withByte a v) b = byteAt s b := by
  simp [byteAt, Memory.read_write_other _ _ h]

/-- A byte that has been written reads as what stands in BUF. -/
theorem byteAt_of_read {a : Nat} {v : Byte} (h : s.buf.read a = some v) : byteAt s a = v := by simp [byteAt, h]

/-- A byte that nothing has written reads as the free value of R33. -/
theorem byteAt_of_unwritten {a : Nat} (h : s.buf.read a = none) : byteAt s a = Config.powerUpByte a := by
  simp [byteAt, h]

/-- The fields after `appendByte`; see `byteAt_appendByte_same` and `byteAt_appendByte_other` for BUF. -/
theorem appendByte_fields (a : Nat) (v : Byte) (c : Nat) (h : c ≤ s.cfg.capacity) :
    (appendByte a v c s h).cfg = s.cfg ∧ (appendByte a v c s h).cursor = c ∧
      (appendByte a v c s h).buf = s.buf.write a v ∧ (appendByte a v c s h).raw = s.raw ∧
      (appendByte a v c s h).scaled = s.scaled ∧ (appendByte a v c s h).inTake = true ∧
      (appendByte a v c s h).frameDone = false ∧ (appendByte a v c s h).inputs = s.inputs ∧
      (appendByte a v c s h).clock = s.clock :=
  ⟨rfl, rfl, rfl, rfl, rfl, rfl, rfl, rfl, rfl⟩

@[simp] theorem byteAt_appendByte_same (a : Nat) (v : Byte) (c : Nat) (h : c ≤ s.cfg.capacity) :
    byteAt (appendByte a v c s h) a = v := by
  simp [appendByte]

theorem byteAt_appendByte_other {a b : Nat} (v : Byte) (c : Nat) (h : c ≤ s.cfg.capacity) (hb : b ≠ a) :
    byteAt (appendByte a v c s h) b = byteAt s b := by
  simp [appendByte, byteAt_withByte_other _ _ hb]

/-- `dropByte` drives the outputs and nothing else. -/
theorem dropByte_eq : dropByte s = { s with inTake := true, frameDone := false } := rfl

/-- `keepAll` drives the outputs and nothing else. -/
theorem keepAll_eq : keepAll s = { s with inTake := false, frameDone := false } := rfl

/-- `publish` writes CURSOR, RAW, SCALED and the outputs and nothing else. -/
theorem publish_eq (x : Bool) :
    publish x s =
      { s with
        cursor := 0, cursor_le := Nat.zero_le _, raw := extractAll s, scaled := (extractAll s).map (rescale s.cfg), inTake := x, frameDone := true } :=
  rfl

@[simp] theorem extractAll_length : (extractAll s).length = s.cfg.n := by simp [extractAll]

theorem extractAll_getElem? {i : Nat} (h : i < s.cfg.n) : (extractAll s)[i]? = some (extract16 s i) := by
  simp [extractAll, h]

/-- The extractor's addresses are addresses of BUF (R49, R106). -/
theorem field_addresses_lt_capacity (cfg : Cfg) {i : Nat} (h : i < cfg.n) :
    lowAddress i < cfg.capacity ∧ highAddress i < cfg.capacity := by
  have := cfg.room
  simp only [lowAddress, highAddress]
  omega

/-- EXTRACT16 depends on BUF's two bytes of the field alone. -/
theorem extract16_congr {s t : State} {i : Nat} (hl : byteAt s (lowAddress i) = byteAt t (lowAddress i))
    (hh : byteAt s (highAddress i) = byteAt t (highAddress i)) : extract16 s i = extract16 t i := by
  have e : lowAddress i + 1 = highAddress i := by simp only [lowAddress, highAddress]; omega
  simp [extract16, memRead2, e, hl, hh]

/-- The extracted fields depend on N and on BUF's bytes below CAPACITY alone. -/
theorem extractAll_congr {s t : State} (hc : s.cfg = t.cfg) (h : ∀ a, a < s.cfg.capacity → byteAt s a = byteAt t a) :
    extractAll s = extractAll t := by
  simp only [extractAll, ← hc]
  refine List.map_congr_left fun i hi => ?_
  obtain ⟨hl, hh⟩ := field_addresses_lt_capacity s.cfg (List.mem_range.mp hi)
  exact extract16_congr (h _ hl) (h _ hh)

@[simp] theorem extractAll_withInputs (ps : List Pins) : extractAll (s.withInputs ps) = extractAll s := rfl

end Sys2Proof.Machine
end

