-- ==== Sys2Proof/Laws/PerInstr.lean ====
section
/-! SUPPORT. Per operation: a well-formed operation's encoding is a word that its own row of the operation map accepts
(T66, R68, R74). -/

namespace Sys2Proof.Laws.EncodesItsRow

/-- Some row of the configuration's map has the operation's mnemonic and accepts its encoding. -/
def Statement (i : Instr) : Prop :=
  ∀ cfg : Cfg, i.wellFormed cfg = true → ∃ r ∈ operationMap cfg, r.mnemonic = i.mnemonic ∧ r.accepts (encode i) = true

theorem reset : Statement .reset := fun _ _ => ⟨_, .head _, rfl, by decide⟩

theorem idle : Statement .idle := fun _ _ => ⟨_, .tail _ (.head _), rfl, by decide⟩

theorem noByte : Statement .noByte := by
  intro cfg _
  refine ⟨⟨"NOBYTE", 0x0800, 0x1900, none⟩, ?_, rfl, by decide⟩
  cases h : cfg.completionGate <;> simp [operationMap, gateRows, h]

theorem complete (val : Byte) : Statement (.complete val) := by
  intro cfg h
  refine ⟨⟨"COMPLETE", 0x0F00, 0x1F00, none⟩, ?_, rfl, ?_⟩
  · simp only [Instr.wellFormed, decide_eq_true_eq] at h
    simp [operationMap, gateRows, h]
  · clear h; revert val; decide

theorem completeUngated : Statement .completeUngated := by
  intro cfg h
  refine ⟨⟨"COMPLETE.UNGATED", 0x0E00, 0x1E00, none⟩, ?_, rfl, by decide⟩
  simp only [Instr.wellFormed, decide_eq_true_eq] at h
  simp [operationMap, gateRows, h]

theorem h1Match (val : Byte) : Statement (.h1Match val) := by
  intro cfg h
  simp only [Instr.wellFormed, decide_eq_true_eq] at h
  refine ⟨⟨"H1_MATCH", 0x0900 ||| cfg.headerByte1.setWidth 13, 0x1FFF, none⟩, by simp [operationMap], rfl, ?_⟩
  rw [← h]; clear h; revert val; decide

theorem h1Miss (val : Byte) : Statement (.h1Miss val) := by
  intro cfg h
  simp only [Instr.wellFormed, decide_eq_true_eq] at h
  refine ⟨⟨"H1_MISS", 0x0900, 0x1F00, some cfg.headerByte1⟩, by simp [operationMap], rfl, ?_⟩
  have e : inDataField (encode (.h1Miss val)) = val := by clear h; revert val; decide
  have m : encode (.h1Miss val) &&& 0x1F00#13 = 0x0900#13 := by clear h e; revert val; decide
  simp [Row.accepts, e, m, Ne.symm h]

theorem h2Match (val : Byte) : Statement (.h2Match val) := by
  intro cfg h
  simp only [Instr.wellFormed, decide_eq_true_eq] at h
  refine ⟨⟨"H2_MATCH", 0x0B00 ||| cfg.headerByte2.setWidth 13, 0x1FFF, none⟩, by simp [operationMap], rfl, ?_⟩
  rw [← h]; clear h; revert val; decide

theorem h2Miss (val : Byte) : Statement (.h2Miss val) := by
  intro cfg h
  simp only [Instr.wellFormed, decide_eq_true_eq] at h
  refine ⟨⟨"H2_MISS", 0x0B00, 0x1F00, some cfg.headerByte2⟩, by simp [operationMap], rfl, ?_⟩
  have e : inDataField (encode (.h2Miss val)) = val := by clear h; revert val; decide
  have m : encode (.h2Miss val) &&& 0x1F00#13 = 0x0B00#13 := by clear h e; revert val; decide
  simp [Row.accepts, e, m, Ne.symm h]

theorem fill (val : Byte) : Statement (.fill val) := by
  intro cfg h
  refine ⟨⟨"FILL", 0x0D00, 0x1F00, none⟩, by simp [operationMap], rfl, ?_⟩
  clear h; revert val; decide

end Sys2Proof.Laws.EncodesItsRow
end

