-- ==== Sys2Proof/Laws/Step.lean ====
section
/-! SUPPORT. The dispatch on packed fields, the cursor classes, and once what an operation and a step can do. -/

namespace Sys2Proof.Machine

/-- The decoder on the fields of a word. -/
theorem decode_pack (cfg : Cfg) (rst poll : Bool) (cls : ClassCode) (inValid : Bool) (inData : Byte) :
    decode cfg (packDispatch rst poll cls inValid inData) =
      if rst then .reset
      else if !poll then .idle
      else if cfg.completionGate = .ungated ∧ cls = clsComplete then .completeUngated
      else if !inValid then .noByte
      else if cls = clsComplete then .complete inData
      else decodeConsumed cfg cls inData := by
  simp [decode]

/-- The operation a step performs, from the input levels and the class of CURSOR. -/
theorem fetch_eq (s : State) :
    fetch s =
      if (pinsNow s).rst then .reset
      else if !(pinsNow s).poll then .idle
      else if s.cfg.completionGate = .ungated ∧ classOf s.cfg.capacity s.cursor = clsComplete then .completeUngated
      else if !(pinsNow s).inValid then .noByte
      else if classOf s.cfg.capacity s.cursor = clsComplete then .complete (pinsNow s).inData
      else decodeConsumed s.cfg (classOf s.cfg.capacity s.cursor) (pinsNow s).inData :=
  decode_pack ..

@[simp] theorem classOf_zero (capacity : Nat) : classOf capacity 0 = clsSeek1 := rfl

@[simp] theorem classOf_one (capacity : Nat) : classOf capacity 1 = clsSeek2 := rfl

/-- A CURSOR from 2 on is FRAME_COMPLETE at CAPACITY and ACCUMULATE_PAYLOAD elsewhere (R64). -/
theorem classOf_of_two_le {capacity cursor : Nat} (h : 2 ≤ cursor) :
    classOf capacity cursor = if cursor = capacity then clsComplete else clsAccumulate := by
  have h0 : cursor ≠ 0 := by omega
  have h1 : cursor ≠ 1 := by omega
  simp [classOf, h0, h1]

/-- The class is FRAME_COMPLETE exactly at CAPACITY (R22, R64). -/
theorem classOf_eq_complete (cfg : Cfg) (cursor : Nat) :
    classOf cfg.capacity cursor = clsComplete ↔ cursor = cfg.capacity := by
  have h2 := two_le_capacity cfg
  by_cases h0 : cursor = 0
  · subst h0; simp [clsSeek1, clsComplete]; omega
  · by_cases h1 : cursor = 1
    · subst h1; simp [clsSeek2, clsComplete]; omega
    · rw [classOf_of_two_le (by omega)]
      split <;> simp_all [clsAccumulate, clsComplete]

@[simp] theorem pinsNow_withInputs (s : State) (p : Pins) (ps : List Pins) : pinsNow (s.withInputs (p :: ps)) = p := rfl

/-- When each operation is selected (R66, R68, R85), by the input levels and CURSOR. Exactly one case holds. -/
theorem fetch_cases (s : State) :
    ((pinsNow s).rst = true ∧ fetch s = .reset) ∨
    ((pinsNow s).rst = false ∧ (pinsNow s).poll = false ∧ fetch s = .idle) ∨
    ((pinsNow s).rst = false ∧ (pinsNow s).poll = true ∧ s.cfg.completionGate = .ungated ∧
      s.cursor = s.cfg.capacity ∧ fetch s = .completeUngated) ∨
    ((pinsNow s).rst = false ∧ (pinsNow s).poll = true ∧ (pinsNow s).inValid = false ∧
      (s.cfg.completionGate = .ungated → s.cursor ≠ s.cfg.capacity) ∧ fetch s = .noByte) ∨
    ((pinsNow s).rst = false ∧ (pinsNow s).poll = true ∧ (pinsNow s).inValid = true ∧
      s.cfg.completionGate = .byteGated ∧ s.cursor = s.cfg.capacity ∧ fetch s = .complete (pinsNow s).inData) ∨
    ((pinsNow s).rst = false ∧ (pinsNow s).poll = true ∧ (pinsNow s).inValid = true ∧ s.cursor = 0 ∧
      (pinsNow s).inData = s.cfg.headerByte1 ∧ fetch s = .h1Match (pinsNow s).inData) ∨
    ((pinsNow s).rst = false ∧ (pinsNow s).poll = true ∧ (pinsNow s).inValid = true ∧ s.cursor = 0 ∧
      (pinsNow s).inData ≠ s.cfg.headerByte1 ∧ fetch s = .h1Miss (pinsNow s).inData) ∨
    ((pinsNow s).rst = false ∧ (pinsNow s).poll = true ∧ (pinsNow s).inValid = true ∧ s.cursor = 1 ∧
      (pinsNow s).inData = s.cfg.headerByte2 ∧ fetch s = .h2Match (pinsNow s).inData) ∨
    ((pinsNow s).rst = false ∧ (pinsNow s).poll = true ∧ (pinsNow s).inValid = true ∧ s.cursor = 1 ∧
      (pinsNow s).inData ≠ s.cfg.headerByte2 ∧ fetch s = .h2Miss (pinsNow s).inData) ∨
    ((pinsNow s).rst = false ∧ (pinsNow s).poll = true ∧ (pinsNow s).inValid = true ∧ 2 ≤ s.cursor ∧
      s.cursor < s.cfg.capacity ∧ fetch s = .fill (pinsNow s).inData) := by
  have h2 := two_le_capacity s.cfg
  have hle := s.cursor_le
  simp only [fetch_eq, classOf_eq_complete]
  generalize pinsNow s = p
  obtain ⟨r, pl, v, d⟩ := p
  cases r <;> cases pl <;> simp
  by_cases hc : s.cursor = s.cfg.capacity
  · cases hg : s.cfg.completionGate <;> cases v <;> simp [hc]
  · simp only [hc]
    cases v <;> simp
    rcases (by omega : s.cursor = 0 ∨ s.cursor = 1 ∨ 2 ≤ s.cursor) with h | h | h
    · by_cases hd : d = s.cfg.headerByte1 <;> simp [h, hd, decodeConsumed]
    · by_cases hd : d = s.cfg.headerByte2 <;> simp [h, hd, decodeConsumed, clsSeek1, clsSeek2]
    · have hlt : s.cursor < s.cfg.capacity := by omega
      rw [classOf_of_two_le h]; simp [hc, hlt, h, decodeConsumed, clsSeek1, clsSeek2, clsAccumulate]

/-- FILL at an address of BUF. -/
theorem exec_fill {s : State} (val : Byte) (h : s.cursor + 1 ≤ s.cfg.capacity) :
    exec (.fill val) s = .next (appendByte s.cursor val (s.cursor + 1) s h) := dif_pos h

/-- Everything an operation can do: its next state, or the one refusal, of FILL. -/
theorem exec_cases (i : Instr) (s : State) :
    (i = .reset ∧ exec i s = .next (restart s)) ∨
    ((i = .idle ∨ i = .noByte) ∧ exec i s = .next (keepAll s)) ∨
    (∃ val, i = .complete val ∧ exec i s = .next (publish true s)) ∨
    (i = .completeUngated ∧ exec i s = .next (publish false s)) ∨
    (∃ val, i = .h1Match val ∧ exec i s = .next (appendByte 0 val 1 s (one_le_capacity s.cfg))) ∨
    (∃ val, i = .h2Match val ∧ exec i s = .next (appendByte 1 val 2 s (two_le_capacity s.cfg))) ∨
    (∃ val, (i = .h1Miss val ∨ i = .h2Miss val) ∧ exec i s = .next (dropByte s)) ∨
    (∃ val, i = .fill val ∧ ∃ h : s.cursor + 1 ≤ s.cfg.capacity,
      exec i s = .next (appendByte s.cursor val (s.cursor + 1) s h)) ∨
    (∃ val, i = .fill val ∧ s.cursor = s.cfg.capacity ∧ exec i s = .refused .cursorOutsideBuffer) := by
  cases i with
  | fill val =>
    by_cases h : s.cursor < s.cfg.capacity
    · simp [exec, execFill, h]
    · have := s.cursor_le
      simp [exec, execFill, h]; omega
  | _ => simp [exec, execReset, execIdle, execNoByte, execComplete, execCompleteUngated, execH1Match, execH1Miss,
      execH2Match, execH2Miss]

/-- A step answers next exactly where its operation does, one edge later. -/
theorem step_eq_next {s t : State} : step s = .next t ↔ ∃ u, exec (fetch s) s = .next u ∧ t = u.nextEdge := by
  unfold step
  cases h : exec (fetch s) s with
  | next u => simp [endOfEdge, eq_comm]
  | fault r => exact nomatch r
  | refused r => simp [endOfEdge]

/-- Everything a step can do: the operation it performed, what selected it, and the state it led to. -/
theorem step_cases {s t : State} (h : step s = .next t) :
    ((pinsNow s).rst = true ∧ fetch s = .reset ∧ t = (restart s).nextEdge) ∨
    ((pinsNow s).rst = false ∧ (pinsNow s).poll = false ∧ fetch s = .idle ∧ t = (keepAll s).nextEdge) ∨
    ((pinsNow s).rst = false ∧ (pinsNow s).poll = true ∧ s.cfg.completionGate = .ungated ∧
      s.cursor = s.cfg.capacity ∧ fetch s = .completeUngated ∧ t = (publish false s).nextEdge) ∨
    ((pinsNow s).rst = false ∧ (pinsNow s).poll = true ∧ (pinsNow s).inValid = false ∧
      (s.cfg.completionGate = .ungated → s.cursor ≠ s.cfg.capacity) ∧ fetch s = .noByte ∧ t = (keepAll s).nextEdge) ∨
    ((pinsNow s).rst = false ∧ (pinsNow s).poll = true ∧ (pinsNow s).inValid = true ∧ (
      (s.cfg.completionGate = .byteGated ∧ s.cursor = s.cfg.capacity ∧ fetch s = .complete (pinsNow s).inData ∧
        t = (publish true s).nextEdge) ∨
      (s.cursor = 0 ∧ (pinsNow s).inData = s.cfg.headerByte1 ∧ fetch s = .h1Match (pinsNow s).inData ∧
        t = (appendByte 0 (pinsNow s).inData 1 s (one_le_capacity s.cfg)).nextEdge) ∨
      (s.cursor = 0 ∧ (pinsNow s).inData ≠ s.cfg.headerByte1 ∧ fetch s = .h1Miss (pinsNow s).inData ∧
        t = (dropByte s).nextEdge) ∨
      (s.cursor = 1 ∧ (pinsNow s).inData = s.cfg.headerByte2 ∧ fetch s = .h2Match (pinsNow s).inData ∧
        t = (appendByte 1 (pinsNow s).inData 2 s (two_le_capacity s.cfg)).nextEdge) ∨
      (s.cursor = 1 ∧ (pinsNow s).inData ≠ s.cfg.headerByte2 ∧ fetch s = .h2Miss (pinsNow s).inData ∧
        t = (dropByte s).nextEdge) ∨
      (2 ≤ s.cursor ∧ ∃ h : s.cursor + 1 ≤ s.cfg.capacity, fetch s = .fill (pinsNow s).inData ∧
        t = (appendByte s.cursor (pinsNow s).inData (s.cursor + 1) s h).nextEdge))) := by
  obtain ⟨u, hu, rfl⟩ := step_eq_next.mp h
  rcases fetch_cases s with ⟨h1, e⟩ | ⟨h1, h2, e⟩ | ⟨h1, h2, h3, h4, e⟩ | ⟨h1, h2, h3, h4, e⟩ | ⟨h1, h2, h3, h4, h5, e⟩ |
    ⟨h1, h2, h3, h4, h5, e⟩ | ⟨h1, h2, h3, h4, h5, e⟩ | ⟨h1, h2, h3, h4, h5, e⟩ | ⟨h1, h2, h3, h4, h5, e⟩ |
    ⟨h1, h2, h3, h4, h5, e⟩ <;> rw [e] at hu
  · cases hu; exact .inl ⟨h1, e, rfl⟩
  · cases hu; exact .inr (.inl ⟨h1, h2, e, rfl⟩)
  · cases hu; exact .inr (.inr (.inl ⟨h1, h2, h3, h4, e, rfl⟩))
  · cases hu; exact .inr (.inr (.inr (.inl ⟨h1, h2, h3, h4, e, rfl⟩)))
  · cases hu; exact .inr (.inr (.inr (.inr ⟨h1, h2, h3, .inl ⟨h4, h5, e, rfl⟩⟩)))
  · cases hu; exact .inr (.inr (.inr (.inr ⟨h1, h2, h3, .inr (.inl ⟨h4, h5, e, rfl⟩)⟩)))
  · cases hu; exact .inr (.inr (.inr (.inr ⟨h1, h2, h3, .inr (.inr (.inl ⟨h4, h5, e, rfl⟩))⟩)))
  · cases hu; exact .inr (.inr (.inr (.inr ⟨h1, h2, h3, .inr (.inr (.inr (.inl ⟨h4, h5, e, rfl⟩)))⟩)))
  · cases hu; exact .inr (.inr (.inr (.inr ⟨h1, h2, h3, .inr (.inr (.inr (.inr (.inl ⟨h4, h5, e, rfl⟩))))⟩)))
  · rw [exec_fill _ h5] at hu
    cases hu
    exact .inr (.inr (.inr (.inr ⟨h1, h2, h3, .inr (.inr (.inr (.inr (.inr ⟨h4, h5, e, rfl⟩))))⟩)))

/-- An operation never writes the configuration, the inputs or the edge count. -/
theorem exec_keeps_setting {i : Instr} {s t : State} (h : exec i s = .next t) :
    t.cfg = s.cfg ∧ t.inputs = s.inputs ∧ t.clock = s.clock := by
  rcases exec_cases i s with ⟨-, e⟩ | ⟨-, e⟩ | ⟨_, -, e⟩ | ⟨-, e⟩ | ⟨_, -, e⟩ | ⟨_, -, e⟩ | ⟨_, -, e⟩ | ⟨_, -, _, e⟩ |
    ⟨_, -, -, e⟩ <;> rw [e] at h <;> cases h <;> exact ⟨rfl, rfl, rfl⟩

/-- The first step of a run, where it has a next state. -/
theorem runTrace_cons {tok : Token} {ts : List Token} {s u : State} (h : stepToken tok s = .next u) :
    runTrace (tok :: ts) s = consOutputs (outputsOf u) (runTrace ts u) := by
  simp [runTrace, h]

/-- What the first step of a run publishes, and the rest. -/
theorem publications_cons {tok : Token} {ts : List Token} {s u : State} (h : stepToken tok s = .next u) :
    publications (tok :: ts) s =
      (if u.frameDone then [(u.raw, u.scaled)] else []) ++ publications ts u := by
  by_cases hf : u.frameDone = true <;> simp [publications, h, hf]

end Sys2Proof.Machine
end

