-- ==== Sys2Proof/Laws/Trace.lean ====
section
/-! SUPPORT. What the step of one token is, by token and cursor class, and how runs go together. -/

namespace Sys2Proof.Machine

/-- The state after the edge of a token whose operation led to `u`: the token's input levels are gone. -/
def afterToken (u : State → State) (tok : Token) (s : State) : State := (u (s.withInputs [tokenPins tok])).nextEdge

variable {s : State}

/-- The step of a token is its operation's, one edge later. -/
theorem stepToken_of_fetch {tok : Token} {i : Instr} {u : State} (hf : fetch (s.withInputs [tokenPins tok]) = i)
    (he : exec i (s.withInputs [tokenPins tok]) = .next u) : stepToken tok s = .next u.nextEdge := by
  rw [stepToken, step, hf, he]; rfl

theorem stepToken_r : stepToken .r s = .next (afterToken restart .r s) :=
  stepToken_of_fetch (i := .reset) (by simp [fetch_eq, tokenPins]) rfl

theorem stepToken_i : stepToken .i s = .next (afterToken keepAll .i s) :=
  stepToken_of_fetch (i := .idle) (by simp [fetch_eq, tokenPins]) rfl

theorem stepToken_pNone (h : s.cfg.completionGate = .ungated → s.cursor ≠ s.cfg.capacity) :
    stepToken .pNone s = .next (afterToken keepAll .pNone s) :=
  stepToken_of_fetch (i := .noByte)
    (by simp only [fetch_eq, classOf_eq_complete]; simpa [tokenPins] using h) rfl

theorem stepToken_pNone_ungated (hg : s.cfg.completionGate = .ungated) (h : s.cursor = s.cfg.capacity) :
    stepToken .pNone s = .next (afterToken (publish false) .pNone s) :=
  stepToken_of_fetch (i := .completeUngated)
    (by simp only [fetch_eq, classOf_eq_complete]; simp [tokenPins, hg, h]) rfl

theorem stepToken_p_ungated (b : Byte) (hg : s.cfg.completionGate = .ungated) (h : s.cursor = s.cfg.capacity) :
    stepToken (.p b) s = .next (afterToken (publish false) (.p b) s) :=
  stepToken_of_fetch (i := .completeUngated)
    (by simp only [fetch_eq, classOf_eq_complete]; simp [tokenPins, hg, h]) rfl

theorem stepToken_p_gated (b : Byte) (hg : s.cfg.completionGate = .byteGated) (h : s.cursor = s.cfg.capacity) :
    stepToken (.p b) s = .next (afterToken (publish true) (.p b) s) :=
  stepToken_of_fetch (i := .complete b)
    (by simp only [fetch_eq, classOf_eq_complete]; simp [tokenPins, hg, h]) rfl

/-- A poll with a byte away from FRAME_COMPLETE decodes by the class and the byte. -/
theorem fetch_p (b : Byte) (h : s.cursor ≠ s.cfg.capacity) :
    fetch (s.withInputs [tokenPins (.p b)]) = decodeConsumed s.cfg (classOf s.cfg.capacity s.cursor) b := by
  simp only [fetch_eq, classOf_eq_complete]
  simp [tokenPins, h]

theorem stepToken_h1Match (h : s.cursor = 0) :
    stepToken (.p s.cfg.headerByte1) s =
      .next (appendByte 0 s.cfg.headerByte1 1 (s.withInputs [tokenPins (.p s.cfg.headerByte1)])
        (one_le_capacity (s.withInputs [tokenPins (.p s.cfg.headerByte1)]).cfg)).nextEdge := by
  have := two_le_capacity s.cfg
  exact stepToken_of_fetch (i := .h1Match s.cfg.headerByte1)
    (by rw [fetch_p _ (by omega), h]; simp [decodeConsumed]) rfl

theorem stepToken_h1Miss {b : Byte} (h : s.cursor = 0) (hb : b ≠ s.cfg.headerByte1) :
    stepToken (.p b) s = .next (afterToken dropByte (.p b) s) := by
  have := two_le_capacity s.cfg
  exact stepToken_of_fetch (i := .h1Miss b) (by rw [fetch_p _ (by omega), h]; simp [decodeConsumed, hb]) rfl

theorem stepToken_h2Match (h : s.cursor = 1) :
    stepToken (.p s.cfg.headerByte2) s =
      .next (appendByte 1 s.cfg.headerByte2 2 (s.withInputs [tokenPins (.p s.cfg.headerByte2)])
        (two_le_capacity (s.withInputs [tokenPins (.p s.cfg.headerByte2)]).cfg)).nextEdge := by
  have := two_le_capacity s.cfg
  exact stepToken_of_fetch (i := .h2Match s.cfg.headerByte2)
    (by rw [fetch_p _ (by omega), h]; simp [decodeConsumed, clsSeek1, clsSeek2]) rfl

theorem stepToken_h2Miss {b : Byte} (h : s.cursor = 1) (hb : b ≠ s.cfg.headerByte2) :
    stepToken (.p b) s = .next (afterToken dropByte (.p b) s) := by
  have := two_le_capacity s.cfg
  exact stepToken_of_fetch (i := .h2Miss b)
    (by rw [fetch_p _ (by omega), h]; simp [decodeConsumed, clsSeek1, clsSeek2, hb]) rfl

theorem stepToken_fill (b : Byte) (h : 2 ≤ s.cursor)
    (hlt : s.cursor + 1 ≤ (s.withInputs [tokenPins (.p b)]).cfg.capacity) :
    stepToken (.p b) s =
      .next (appendByte s.cursor b (s.cursor + 1) (s.withInputs [tokenPins (.p b)]) hlt).nextEdge := by
  have hle : s.cursor + 1 ≤ s.cfg.capacity := hlt
  refine stepToken_of_fetch (i := .fill b) ?_ (exec_fill (s := s.withInputs [tokenPins (.p b)]) b hlt)
  rw [fetch_p _ (by omega), classOf_of_two_le h, if_neg (by omega)]
  simp [decodeConsumed, clsSeek1, clsSeek2, clsAccumulate]

/-- A run of one trace after another. -/
theorem runTrace_append {ts us : List Token} {t u : State} {os ps : List Outputs}
    (h : runTrace ts s = .next (t, os)) (h' : runTrace us t = .next (u, ps)) :
    runTrace (ts ++ us) s = .next (u, os ++ ps) := by
  induction ts generalizing s os with
  | nil => cases h; exact h'
  | cons tok ts ih =>
    cases hs : stepToken tok s with
    | fault r => exact nomatch r
    | refused r => simp [runTrace, hs] at h
    | next v =>
      rw [runTrace_cons hs] at h
      cases hr : runTrace ts v with
      | fault r => exact nomatch r
      | refused r => simp [hr, consOutputs] at h
      | next q =>
        obtain ⟨f, of⟩ := q
        rw [hr] at h
        cases h
        rw [List.cons_append, runTrace_cons hs, ih hr]
        rfl

/-- What one trace after another publishes. -/
theorem publications_append {ts us : List Token} {t : State} {os : List Outputs}
    (h : runTrace ts s = .next (t, os)) : publications (ts ++ us) s = publications ts s ++ publications us t := by
  induction ts generalizing s os with
  | nil => cases h; rfl
  | cons tok ts ih =>
    cases hs : stepToken tok s with
    | fault r => exact nomatch r
    | refused r => simp [runTrace, hs] at h
    | next v =>
      rw [runTrace_cons hs] at h
      cases hr : runTrace ts v with
      | fault r => exact nomatch r
      | refused r => simp [hr, consOutputs] at h
      | next q =>
        obtain ⟨f, of⟩ := q
        rw [hr] at h
        cases h
        rw [List.cons_append, publications_cons hs, publications_cons hs, ih hr, List.append_assoc]

end Sys2Proof.Machine
end

