-- ==== Sys2Proof/Tests/Slice0.lean ====
section
/-! SUPPORT. Tests with expected results from the spec (95_test_vectors.md, table T122, opcode_table.json), the smoke
tests of `Instr.wellFormed` and `Cfg.build`, and for every obligation with hypotheses a witness that meets them. -/

namespace Sys2Proof.Tests

open Sys2Proof Sys2Proof.Machine

/-- The default instance under UNGATED. -/
def ungatedCfg : Cfg := { Cfg.default with completionGate := .ungated }

/-- The small instance of the vectors: CAPACITY 6, N 2. -/
def smallCfg (gate : CompletionGate) : Cfg :=
  { Cfg.default with capacity := 6, n := 2, completionGate := gate, room := by decide }

/-- An instance without channels: CAPACITY 2, N 0 (V3.11, V5.11). -/
def bareCfg : Cfg := { Cfg.default with capacity := 2, n := 0, room := by decide }

/-- A state of the vectors, written (CURSOR; BUF; RAW; SCALED). -/
def vec (cfg : Cfg) (cursor : Nat) (bytes : List Byte) (raw : List Field) (scaled : List Int)
    (h : cursor ≤ cfg.capacity := by decide) : State :=
  { State.reset with
    cfg := cfg, cursor := cursor, cursor_le := h, buf := bytes.mapIdx fun k b => (k, b), raw := raw, scaled := scaled }

/-- The state after one token: the outputs of the step, and one edge taken. -/
def after (s : State) (inTake frameDone : Bool) : State :=
  { s with inTake := inTake, frameDone := frameDone, clock := s.clock + 1 }

/-- The state of the vectors V2: a whole frame in BUF, another one published. -/
def v2 (gate : CompletionGate) (cursor : Nat) (h : cursor ≤ 6 := by decide) : State :=
  vec (smallCfg gate) cursor [0x20, 0x40, 0xE8, 0x03, 0xD0, 0x07] [1500, 1500] [127, 127] h

/-- A state of the vectors V3 to V5 with the given BUF. -/
def v3 (gate : CompletionGate) (cursor : Nat) (bytes : List Byte) (h : cursor ≤ 6 := by decide) : State :=
  vec (smallCfg gate) cursor bytes [7, 8] [9, 10] h

/-! ### WellFormed and Cfg.build: what each check refuses -/

theorem test_wf_complete_not_ungated : (Instr.complete 0x55).wellFormed ungatedCfg = false := by decide
theorem test_wf_complete_ungated_not_gated : Instr.completeUngated.wellFormed Cfg.default = false := by decide
theorem test_wf_h1Match_other_byte : (Instr.h1Match 0x21).wellFormed Cfg.default = false := by decide
theorem test_wf_h1Miss_header_byte : (Instr.h1Miss 0x20).wellFormed Cfg.default = false := by decide
theorem test_wf_h2Match_other_byte : (Instr.h2Match 0x20).wellFormed Cfg.default = false := by decide
theorem test_wf_h2Miss_header_byte : (Instr.h2Miss 0x40).wellFormed Cfg.default = false := by decide

theorem test_cfg_too_small :
    Cfg.build { Cfg.default.toCfgFields with capacity := 13 } = .error .capacityTooSmall := rfl
theorem test_cfg_zero_span :
    Cfg.build { Cfg.default.toCfgFields with fromHigh := 1000 } = .error .zeroSpan := rfl
theorem test_cfg_least_capacity :
    (Cfg.build { Cfg.default.toCfgFields with capacity := 14 }).toOption.isSome = true := rfl

/-! ### Decoding: words written out from the encodings of R81 to R105, `rst poll cls in_valid in_data` (table V1) -/

theorem test_decode_reset : decode Cfg.default 0b1_1_11_1_00100000 = .reset := by decide
theorem test_decode_idle : decode Cfg.default 0b0_0_11_1_00000000 = .idle := by decide
theorem test_decode_noByte : decode Cfg.default 0b0_1_10_0_00000000 = .noByte := by decide
theorem test_decode_noByte_complete_class : decode Cfg.default 0b0_1_11_0_00000000 = .noByte := by decide
theorem test_decode_complete : decode Cfg.default 0b0_1_11_1_01010101 = .complete 0x55 := by decide
theorem test_decode_ungated_no_byte : decode ungatedCfg 0b0_1_11_0_00000000 = .completeUngated := by decide
theorem test_decode_ungated_byte : decode ungatedCfg 0b0_1_11_1_00100000 = .completeUngated := by decide
theorem test_decode_h1Match : decode Cfg.default 0b0_1_00_1_00100000 = .h1Match 0x20 := by decide
theorem test_decode_h1Miss : decode Cfg.default 0b0_1_00_1_00100001 = .h1Miss 0x21 := by decide
theorem test_decode_h2Match : decode Cfg.default 0b0_1_01_1_01000000 = .h2Match 0x40 := by decide
theorem test_decode_h2Miss : decode Cfg.default 0b0_1_01_1_01000001 = .h2Miss 0x41 := by decide
theorem test_decode_fill : decode Cfg.default 0b0_1_10_1_11111111 = .fill 0xFF := by decide
theorem test_decode_other_header :
    decode { Cfg.default with headerByte1 := 0x21 } 0b0_1_00_1_00100001 = .h1Match 0x21 := by decide
theorem test_decode_too_wide : decodeBits Cfg.default 0x2000 = .error .widerThanDispatchWord := rfl

/-- The ten rows of the opcode table, by their match words, as the host's reader sees them. -/
theorem test_table_words :
    [0x1000, 0x0000, 0x0800, 0x0F00, 0x0E00, 0x0920, 0x0900, 0x0B40, 0x0B00, 0x0D00].map (decodeTableWord 16) =
      [some .reset, some .idle, some .noByte, some (.complete 0), some .completeUngated, some (.h1Match 0x20),
        some (.h1Miss 0), some (.h2Match 0x40), some (.h2Miss 0), some (.fill 0)] := by decide

/-- Each of them, placed after reset, is what the next step selects. -/
theorem test_placed_words :
    [0x1000, 0x0000, 0x0800, 0x0F00, 0x0E00, 0x0920, 0x0900, 0x0B40, 0x0B00, 0x0D00].map
        (fun w => some (fetch (State.reset.withFetchWord 16 w))) =
      [0x1000, 0x0000, 0x0800, 0x0F00, 0x0E00, 0x0920, 0x0900, 0x0B40, 0x0B00, 0x0D00].map (decodeTableWord 16) := by
  decide

/-! ### One step of each operation (vectors V2 to V5) -/

/-- V2.3: a RESET at FRAME_COMPLETE drops the pending frame. -/
theorem test_reset_drops_frame : stepToken .r (v2 .ungated 6) =
    .next (after (vec (smallCfg .ungated) 0 [0x20, 0x40, 0xE8, 0x03, 0xD0, 0x07] [0, 0] [0, 0]) false false) := rfl

/-- V2.1. -/
theorem test_reset_mid_frame : stepToken .r (v2 .byteGated 4) =
    .next (after (vec (smallCfg .byteGated) 0 [0x20, 0x40, 0xE8, 0x03, 0xD0, 0x07] [0, 0] [0, 0]) false false) := rfl

/-- V2.7: the pending frame stays pending. -/
theorem test_idle : stepToken .i (v2 .ungated 6) = .next (after (v2 .ungated 6) false false) := rfl

/-- V2.9. -/
theorem test_noByte : stepToken .pNone (v2 .byteGated 1) = .next (after (v2 .byteGated 1) false false) := rfl

/-- V2.11: under BYTE_GATED a poll without a byte does not complete. -/
theorem test_noByte_pending : stepToken .pNone (v2 .byteGated 6) = .next (after (v2 .byteGated 6) false false) := rfl

/-- V2.12: under UNGATED it does. -/
theorem test_complete_ungated_no_byte : stepToken .pNone (v2 .ungated 6) =
    .next (after (vec (smallCfg .ungated) 0 [0x20, 0x40, 0xE8, 0x03, 0xD0, 0x07] [1000, 2000] [0, 255]) false true) := rfl

/-- V3.1. -/
theorem test_h1Match : stepToken (.p 0x20) (v3 .byteGated 0 [0x11, 0x22, 0x33, 0x44, 0x55, 0x66]) =
    .next (after (v3 .byteGated 1 [0x20, 0x22, 0x33, 0x44, 0x55, 0x66]) true false) := rfl

/-- V3.2: 0x40 is a mismatch in SEEK_HEADER_1. -/
theorem test_h1Miss : stepToken (.p 0x40) (v3 .byteGated 0 [0x11, 0x22, 0x33, 0x44, 0x55, 0x66]) =
    .next (after (v3 .byteGated 0 [0x11, 0x22, 0x33, 0x44, 0x55, 0x66]) true false) := rfl

/-- V3.6. -/
theorem test_h2Match : stepToken (.p 0x40) (v3 .byteGated 1 [0x20, 0x22, 0x33, 0x44, 0x55, 0x66]) =
    .next (after (v3 .byteGated 2 [0x20, 0x40, 0x33, 0x44, 0x55, 0x66]) true false) := rfl

/-- V3.11: with CAPACITY 2 the header alone is the frame. -/
theorem test_h2Match_bare : stepToken (.p 0x40) (vec bareCfg 1 [0x20, 0x99] [] []) =
    .next (after (vec bareCfg 2 [0x20, 0x40] [] []) true false) := rfl

/-- V3.7: a 0x20 in SEEK_HEADER_2 is discarded and the cursor stays at 1. -/
theorem test_h2Miss : stepToken (.p 0x20) (v3 .byteGated 1 [0x20, 0x22, 0x33, 0x44, 0x55, 0x66]) =
    .next (after (v3 .byteGated 1 [0x20, 0x22, 0x33, 0x44, 0x55, 0x66]) true false) := rfl

/-- V4.2: a header value in the payload is stored like any byte. -/
theorem test_fill : stepToken (.p 0x20) (v3 .byteGated 3 [0x20, 0x40, 0x33, 0x44, 0x55, 0x66]) =
    .next (after (v3 .byteGated 4 [0x20, 0x40, 0x33, 0x20, 0x55, 0x66]) true false) := rfl

/-- V4.5: the last byte brings CURSOR to CAPACITY and publishes nothing. -/
theorem test_fill_last : stepToken (.p 0xFF) (v3 .ungated 5 [0x20, 0x40, 0x33, 0x44, 0x55, 0x66]) =
    .next (after (v3 .ungated 6 [0x20, 0x40, 0x33, 0x44, 0x55, 0xFF]) true false) := rfl

/-- V5.2: the completing byte is consumed and lost, although it is a header byte. -/
theorem test_complete : stepToken (.p 0x20) (v3 .byteGated 6 [0x20, 0x40, 0xE8, 0x03, 0xD0, 0x07]) =
    .next (after (vec (smallCfg .byteGated) 0 [0x20, 0x40, 0xE8, 0x03, 0xD0, 0x07] [1000, 2000] [0, 255]) true true) := rfl

/-- V5.5, V5.7 in one frame: unsigned fields, little-endian. -/
theorem test_complete_fields : stepToken (.p 0x00) (v3 .byteGated 6 [0x20, 0x40, 0xFF, 0xFF, 0x07, 0xD0]) =
    .next (after (vec (smallCfg .byteGated) 0 [0x20, 0x40, 0xFF, 0xFF, 0x07, 0xD0] [65535, 53255] [16456, 13325])
      true true) := rfl

/-- V5.3: under UNGATED the offered byte is not consumed. -/
theorem test_complete_ungated : stepToken (.p 0x20) (v3 .ungated 6 [0x20, 0x40, 0xE8, 0x03, 0xD0, 0x07]) =
    .next (after (vec (smallCfg .ungated) 0 [0x20, 0x40, 0xE8, 0x03, 0xD0, 0x07] [1000, 2000] [0, 255]) false true) := rfl

/-! ### The arithmetic (vector V6, table T122), the ports, the notation -/

theorem test_tdiv : [(127500, 1000), (-127500, 1000), (-999, 1000), (-1000, 1000), (-1001, 1000), (16456425, 1000)].map
    (fun p : Int × Int => tdiv p.1 p.2) = [127, -127, 0, -1, -1, 16456] := by decide

theorem test_rescale : [0, 500, 996, 997, 999, 1003, 1004, 1499, 1999, 2004].map (rescale Cfg.default) =
    [-255, -127, -1, 0, 0, 0, 1, 127, 254, 256] := by decide

/-- The stored patterns of T122. -/
theorem test_stored_pattern :
    [0, 500, 2000].map (fun raw => BitVec.ofInt 16 (rescale Cfg.default raw)) = [0xFF01, 0xFF81, 0x00FF] := by decide

/-- The table of EXTRACT16 in V5. -/
theorem test_assemble : [((0xE8 : Byte), (0x03 : Byte)), (0x00, 0x01), (0xFF, 0x00), (0x00, 0x80)].map
    (fun p => assemble p.1 p.2) = [1000, 256, 255, 32768] := by decide

/-- R10: 6 bits for CAPACITY 32, 4 for CAPACITY 14. -/
theorem test_cursor_width : cursorWidth Cfg.default = 6 ∧
    cursorWidth { Cfg.default with capacity := 14, room := by decide } = 4 := by decide

/-- R73: FRAME(1000, 2000) in the small instance is P20 P40 PE8 P03 PD0 P07. -/
theorem test_frame_tokens : frameTokens (smallCfg .byteGated) [1000, 2000] (zeroPad (smallCfg .byteGated)) =
    [.p 0x20, .p 0x40, .p 0xE8, .p 0x03, .p 0xD0, .p 0x07] := by decide

/-- R73: under UNGATED a byte offered at FRAME_COMPLETE is offered again. -/
theorem test_stream_tokens : streamTokens (smallCfg .ungated) 5 [0x07, 0x20, 0x40] =
    [.p 0x07, .p 0x20, .p 0x20, .p 0x40] := by decide

/-! ### Witnesses: the hypotheses of the statements can be met

A hypothesis `step s = .next t` or `exec i s = .next t` has one of the single-step vectors as its witness, whose state
is named here. -/

/-- The state of a vector with the input levels of a token set for the next edge. -/
def poised (tok : Token) (s : State) : State := s.withInputs [tokenPins tok]

/-- A whole frame in the small instance. -/
def frameA : List Byte := [0x20, 0x40, 0xE8, 0x03, 0xD0, 0x07]

/-- Another one, none of whose later bytes is a 0x20. -/
def frameB : List Byte := [0x20, 0x40, 0xDC, 0x05, 0xDC, 0x05]

theorem witness_DecodeOfEncode :
    (∀ i ∈ [Instr.reset, .idle, .noByte, .complete 0xFF, .h1Match 0x20, .h1Miss 0x40, .h2Match 0x40, .h2Miss 0x20,
      .fill 0], i.wellFormed Cfg.default = true) ∧ Instr.completeUngated.wellFormed ungatedCfg = true := by decide

theorem witness_ExactlyOneRowAccepts : Cfg.default.completionGate = .byteGated := rfl

theorem witness_PlacedWordRunsNext : 3 ≤ State.reset.cfg.capacity ∧ decodeTableWord 16 0x0D20 = some (.fill 0x20) ∧
    3 ≤ (v2 .ungated 4).cfg.capacity ∧ decodeTableWord 16 0x0E00 = some .completeUngated := by decide

theorem witness_StepRunsDecodedOperation :
    decode (v2 .byteGated 6).cfg (dispatchWord (poised (.p 0x55) (v2 .byteGated 6))) = .complete 0x55 := by decide

/-- A step that consumes, for each of the six operations that do, and one that does not. -/
theorem witness_InTakeAsSpecified :
    ([(.p 0x55, v2 .byteGated 6), (.p 0x20, v2 .byteGated 0), (.p 0x40, v2 .byteGated 0), (.p 0x40, v2 .byteGated 1),
        (.p 0x20, v2 .byteGated 1), (.p 0x20, v2 .byteGated 2), (.p 0x20, v2 .ungated 6)].map
      fun q : Token × State => fetch (poised q.1 q.2)) =
      [.complete 0x55, .h1Match 0x20, .h1Miss 0x40, .h2Match 0x40, .h2Miss 0x20, .fill 0x20, .completeUngated] ∧
    step (poised (.p 0x20) (v2 .ungated 6)) = .next (publish false (poised (.p 0x20) (v2 .ungated 6))).nextEdge := by
  and_intros <;> first | decide | rfl

/-- `frame_done` 1 under both gates, and 0. -/
theorem witness_FrameDoneExactlyOnComplete :
    step (poised (.p 0x20) (v2 .byteGated 6)) = .next (publish true (poised (.p 0x20) (v2 .byteGated 6))).nextEdge ∧
    step (poised .pNone (v2 .ungated 6)) = .next (publish false (poised .pNone (v2 .ungated 6))).nextEdge ∧
    step (poised .i (v2 .ungated 6)) = .next (keepAll (poised .i (v2 .ungated 6))).nextEdge := by
  and_intros <;> first | decide | rfl

/-- Each clause's class, with both ends of ACCUMULATE_PAYLOAD. -/
theorem witness_CursorFollowsTransitionTable :
    ([(.p 0x20, v2 .byteGated 0), (.p 0x40, v2 .byteGated 1), (.p 0x01, v2 .byteGated 2), (.p 0x01, v2 .byteGated 5),
        (.p 0x01, v2 .byteGated 6), (.pNone, v2 .ungated 6)].map fun q : Token × State => fetch (poised q.1 q.2)) =
      [.h1Match 0x20, .h2Match 0x40, .fill 0x01, .fill 0x01, .complete 0x01, .completeUngated] ∧
    step (poised (.p 0x01) (v2 .byteGated 5)) =
      .next (appendByte 5 0x01 6 (poised (.p 0x01) (v2 .byteGated 5)) (by decide)).nextEdge := by
  and_intros <;> first | decide | rfl

theorem witness_ChannelsChangeOnlyOnCompletion :
    step (poised (.p 0x01) (v2 .byteGated 5)) =
      .next (appendByte 5 0x01 6 (poised (.p 0x01) (v2 .byteGated 5)) (by decide)).nextEdge ∧
    (appendByte 5 0x01 6 (poised (.p 0x01) (v2 .byteGated 5)) (by decide)).nextEdge.frameDone = false ∧
    (pinsNow (poised (.p 0x01) (v2 .byteGated 5))).rst = false := by
  and_intros <;> first | decide | rfl

theorem witness_StepStoresOnlyAtCursor :
    step (poised (.p 0x20) (v2 .byteGated 0)) =
      .next (appendByte 0 0x20 1 (poised (.p 0x20) (v2 .byteGated 0)) (by decide)).nextEdge := rfl

/-- The three kinds of input that are not looked at, each with different levels. -/
theorem witness_UnlookedInputsIgnored :
    SameWhereLookedAt ⟨true, false, false, 0⟩ ⟨true, true, true, 0x20⟩ ∧
    SameWhereLookedAt ⟨false, false, false, 0⟩ ⟨false, false, true, 0x20⟩ ∧
    SameWhereLookedAt ⟨false, true, false, 0⟩ ⟨false, true, false, 0x20⟩ := by simp [SameWhereLookedAt]

/-- Under each gate, with two different bytes, and under UNGATED with and without one. -/
theorem witness_CompletionIgnoresTheByte :
    (v2 .byteGated 6).cursor = (v2 .byteGated 6).cfg.capacity ∧
    (v2 .ungated 6).cursor = (v2 .ungated 6).cfg.capacity ∧
    (tokenPins (.p 0x20)).rst = (tokenPins (.p 0x55)).rst ∧ (tokenPins (.p 0x20)).poll = (tokenPins (.p 0x55)).poll ∧
    (tokenPins (.p 0x20)).inValid = (tokenPins (.p 0x55)).inValid ∧
    (tokenPins (.p 0x20)).rst = (tokenPins .pNone).rst ∧ (tokenPins (.p 0x20)).poll = (tokenPins .pNone).poll := by
  decide

/-- Both ends of ACCUMULATE_PAYLOAD in the default instance (addresses 2 and 31). -/
theorem witness_FillOperation :
    fetch (poised (.p 0xE8) (State.reset.withCursor 2 (by decide))) = .fill 0xE8 ∧
    fetch (poised (.p 0xE8) (State.reset.withCursor 31 (by decide))) = .fill 0xE8 ∧
    (State.reset.withCursor 31 (by decide)).cursor < State.reset.cfg.capacity := by decide

theorem witness_FillOutsideBufferRefused :
    (State.reset.withCursor 32 (by decide)).cursor = State.reset.cfg.capacity := by decide

/-- Both operations of COMPLETE, with the first and the last channel. -/
theorem witness_CompleteOperation :
    ((∃ val, Instr.complete 0x55 = .complete val) ∧ true = true) ∧
    (Instr.completeUngated = .completeUngated ∧ false = false) ∧ 0 < State.reset.cfg.n ∧ 5 < State.reset.cfg.n :=
  ⟨⟨⟨_, rfl⟩, rfl⟩, ⟨rfl, rfl⟩, by decide, by decide⟩

/-- The first and the last channel, and the bits at each side of the byte boundary. -/
theorem witness_ExtractorIsLittleEndian : 0 < (v2 .byteGated 6).cfg.n ∧ 1 < (v2 .byteGated 6).cfg.n ∧ 7 < 8 ∧
    8 ≤ 8 ∧ 15 < 16 ∧ extract16 (v2 .byteGated 6) 0 = 0x03E8 ∧ extract16 (v2 .byteGated 6) 1 = 0x07D0 := by decide

/-- The sign clauses of R117: each meets b ≠ 0; -999 is not divided by 1000, -1000 is. -/
theorem witness_TdivRoundsTowardZero : (1000 : Int) ≠ 0 ∧ (0 : Int) ≤ 0 ∧ (0 : Int) < 1000 ∧ (-999 : Int) < 0 ∧
    ¬ (1000 : Int) ∣ -999 ∧ (1000 : Int) ∣ -1000 := by decide

/-- Fields in order, and values at both ends of the second clause's range. -/
theorem witness_RescaleMonotoneWithPlateaus : (997 : Field).toNat ≤ (1003 : Field).toNat ∧ (-255 : Int) < -254 ∧
    (16455 : Int) < 16456 ∧ (-254 : Int) ≠ 0 ∧ (16455 : Int) ≠ 0 := by decide

theorem witness_PortsShowPublishedFrame :
    step (poised .pNone (v2 .ungated 6)) = .next (publish false (poised .pNone (v2 .ungated 6))).nextEdge ∧
    (publish false (poised .pNone (v2 .ungated 6))).nextEdge.frameDone = true ∧ 1 < (v2 .ungated 6).cfg.n := by
  and_intros <;> first | decide | rfl

theorem witness_CursorFitsItsRegister : Cfg.default.capacity < 2 ^ 6 := by decide

/-- Both sides of both constraints, at the boundary. -/
theorem witness_ConfigurationCheckedWhenBuilt :
    Cfg.build Cfg.default.toCfgFields = .ok Cfg.default ∧ 13 < 2 + 2 * Cfg.default.n ∧
    2 + 2 * Cfg.default.n ≤ 14 ∧ { Cfg.default.toCfgFields with fromHigh := 1000 }.fromHigh = Cfg.default.fromLow := by
  and_intros <;> decide

/-- The state of vector V2.3, whose CURSOR, RAW and SCALED are not RESET's. -/
theorem witness_ResetEstablishesInvariants :
    (poised .r (v2 .ungated 6)).buf.wf = true ∧ (∀ c ∈ (poised .r (v2 .ungated 6)).buf, c.1 < 6) ∧
    (pinsNow (poised .r (v2 .ungated 6))).rst = true ∧
    step (poised .r (v2 .ungated 6)) = .next (restart (poised .r (v2 .ungated 6))).nextEdge := by
  and_intros <;> first | decide | rfl

/-- A published frame with a whole frame in BUF, about to complete. -/
theorem witness_EveryStepKeepsInvariants : Inv (poised .pNone (v2 .ungated 6)) ∧
    step (poised .pNone (v2 .ungated 6)) = .next (publish false (poised .pNone (v2 .ungated 6))).nextEdge := by
  refine ⟨⟨⟨by decide, rfl, rfl, by decide, by decide⟩, ⟨fun _ => by decide, fun _ => by decide, ?_⟩, .inl (by decide)⟩,
    rfl⟩
  have h : ∀ a, a < 6 → (Memory.read (v2 .ungated 6).buf a).isSome = true := by decide
  exact h

/-- Two states whose BUF differs at CURSOR. -/
theorem witness_UnwrittenBufferUnobservable :
    SameBelowCursor (poised (.p 0x01) (v3 .byteGated 2 [0x20, 0x40, 0x33])) (poised (.p 0x01) (v3 .byteGated 2 [0x20, 0x40])) ∧
    step (poised (.p 0x01) (v3 .byteGated 2 [0x20, 0x40, 0x33])) =
      .next (appendByte 2 0x01 3 (poised (.p 0x01) (v3 .byteGated 2 [0x20, 0x40, 0x33])) (by decide)).nextEdge := by
  refine ⟨⟨rfl, rfl, rfl, rfl, rfl, rfl, fun a h => ?_⟩, rfl⟩
  have h' : a < 2 := h
  match a, h' with
  | 0, _ => rfl
  | 1, _ => rfl

/-- Two different states at power-up. -/
theorem witness_PowerUpStateUnobservable : (v2 .ungated 6).cfg = (v3 .ungated 3 []).cfg ∧
    runTrace [.r, .i] (v2 .ungated 6) = .next
      ({ vec (smallCfg .ungated) 0 frameA [0, 0] [0, 0] with clock := 2 }, [⟨false, false⟩, ⟨false, false⟩]) := by
  and_intros <;> first | decide | rfl

/-- An idle step before the RESET, from two different states at power-up. -/
theorem witness_StartedTraceNeverStops : startUpOk [.i, .r] = true ∧ (v2 .ungated 6).cfg = (v3 .ungated 3 []).cfg ∧
    runTrace [.i, .r] (v2 .ungated 6) = .next
      ({ vec (smallCfg .ungated) 0 frameA [0, 0] [0, 0] with clock := 2 }, [⟨false, false⟩, ⟨false, false⟩]) ∧
    runTrace [.i, .r] (v3 .ungated 3 []) = .next
      ({ vec (smallCfg .ungated) 0 [] [0, 0] [0, 0] with clock := 2 }, [⟨false, false⟩, ⟨false, false⟩]) :=
  ⟨rfl, rfl, rfl, rfl⟩

/-- Vector S7's header: garbage before 0x20 and between. -/
theorem witness_AcceptedHeader : State.reset.cursor = 0 ∧ (∀ b ∈ [(0x41 : Byte), 0x40], b ≠ State.reset.cfg.headerByte1) ∧
    ∀ b ∈ [(0x41 : Byte), 0x20], b ≠ State.reset.cfg.headerByte2 := by decide

/-- Vector S1, and a trace with the first header byte only. -/
theorem witness_NoHeaderNoFrame : (v2 .byteGated 0).cursor = 0 ∧
    (∀ tok ∈ [Token.p 0x41, .p 0x40, .pNone, .p 0x20, .i, .p 0xFF], tok ≠ .r) ∧
    holdsHeader (v2 .byteGated 0).cfg false [.p 0x41, .p 0x40, .pNone, .p 0x20, .i, .p 0xFF] = false := by decide

/-- Vector S5. -/
theorem witness_StallInSeekHeaderTwo : (v2 .byteGated 1).cursor = 1 ∧
    ∀ tok ∈ [Token.p 0x00, .p 0x20, .p 0x41, .pNone, .p 0xFF, .i],
      tok ≠ .r ∧ tok ≠ .p (v2 .byteGated 1).cfg.headerByte2 := by decide

/-- The whole payload of the small instance, header values among it. -/
theorem witness_PayloadStoredInOrder : 2 ≤ (v2 .byteGated 2).cursor ∧
    (v2 .byteGated 2).cursor + [(0x20 : Byte), 0x40, 0x20, 0x40].length ≤ (v2 .byteGated 2).cfg.capacity := by decide

theorem witness_CompletionWaitsForByte : (v2 .byteGated 6).cfg.completionGate = .byteGated ∧
    (v2 .byteGated 6).cursor = (v2 .byteGated 6).cfg.capacity ∧ ∀ tok ∈ [Token.i, .pNone], tok = .i ∨ tok = .pNone := by
  decide

/-- A frame with idle steps and a poll without a byte in between; waiting steps under each gate; the last token with a
byte, and under UNGATED without. -/
theorem witness_FramePublished : (v2 .ungated 0).cursor = 0 ∧
    (∀ x ∈ [Token.i, .p 0x20, .p 0x40, .pNone, .p 0xE8, .p 0x03, .i, .p 0xD0], x ≠ .r) ∧
    [Token.i, .p 0x20, .p 0x40, .pNone, .p 0xE8, .p 0x03, .i, .p 0xD0].filterMap tokenByte ++ [0x07] = frameA ∧
    IsFrame (smallCfg .ungated) frameA ∧ IsFrame (smallCfg .byteGated) frameA ∧
    (v2 .ungated 0).cfg.completionGate = .ungated ∧
    (∀ x ∈ [Token.i, .i], x = .i ∨ ((v2 .ungated 0).cfg.completionGate = .byteGated ∧ x = .pNone)) ∧
    (∀ x ∈ [Token.i, .pNone], x = .i ∨ ((v2 .byteGated 0).cfg.completionGate = .byteGated ∧ x = .pNone)) := by
  refine ⟨rfl, by decide, rfl, ⟨rfl, rfl, rfl⟩, ⟨rfl, rfl, rfl⟩, rfl, by decide, by decide⟩

theorem witness_GatedLosesSecondFrame : (v2 .byteGated 0).cfg.completionGate = .byteGated ∧
    (v2 .byteGated 0).cursor = 0 ∧ IsFrame (v2 .byteGated 0).cfg frameA ∧ IsFrame (v2 .byteGated 0).cfg frameB ∧
    ∀ b ∈ frameB.tail, b ≠ (v2 .byteGated 0).cfg.headerByte1 :=
  ⟨rfl, rfl, ⟨rfl, rfl, rfl⟩, ⟨rfl, rfl, rfl⟩, by decide⟩

/-- Three frames, and both kinds of last poll. -/
theorem witness_UngatedDecodesBackToBack : (v2 .ungated 0).cfg.completionGate = .ungated ∧ (v2 .ungated 0).cursor = 0 ∧
    (∀ f ∈ [frameA, frameB, frameA], IsFrame (v2 .ungated 0).cfg f) ∧ [frameA, frameB, frameA] ≠ [] ∧
    (Token.pNone = .pNone ∨ ∃ b, Token.pNone = .p b) ∧ (Token.p 0x55 = .pNone ∨ ∃ b, Token.p 0x55 = .p b) := by
  refine ⟨rfl, rfl, ?_, by decide, .inl rfl, .inr ⟨_, rfl⟩⟩
  simp only [List.mem_cons, List.not_mem_nil, or_false]
  rintro f (rfl | rfl | rfl) <;> exact ⟨rfl, rfl, rfl⟩

/-- A step that takes the offered byte, and one under UNGATED at FRAME_COMPLETE that does not. -/
theorem witness_ByteSourceConserved :
    systemStep ⟨false, true, true, [0x40], 0⟩ ⟨v2 .byteGated 0, [0x20]⟩ = .next
      ⟨(appendByte 0 0x20 1 (poised (.p 0x20) (v2 .byteGated 0)) (by decide)).nextEdge, [0x40]⟩ ∧
    systemStep ⟨false, true, true, [], 0⟩ ⟨v2 .ungated 6, [0x20]⟩ = .next
      ⟨(publish false (poised (.p 0x20) (v2 .ungated 6))).nextEdge, [0x20]⟩ := ⟨rfl, rfl⟩

end Sys2Proof.Tests
end

/-! ### `frame_done` and the channel registers (R32, R105) -/

namespace Sys2Proof.Machine

/-- `publishes` holds of COMPLETE under either gate and of nothing else (R74, R105). -/
theorem publishes_iff (i : Instr) : publishes i = true ↔ (∃ val, i = .complete val) ∨ i = .completeUngated := by
  cases i <;> simp [publishes]

/-- A publishing operation always answers, and takes a byte exactly where its row consumes one (R105). -/
theorem exec_of_publishes {i : Instr} (s : State) (hi : publishes i = true) :
    exec i s = .next (publish (consumes i) s) := by
  rcases (publishes_iff i).mp hi with ⟨val, rfl⟩ | rfl <;> rfl

/-- An operation that answers drives `frame_done` as its row says (R32). -/
theorem exec_frameDone {i : Instr} {s t : State} (h : exec i s = .next t) : t.frameDone = publishes i := by
  rcases exec_cases i s with ⟨rfl, e⟩ | ⟨rfl | rfl, e⟩ | ⟨_, rfl, e⟩ | ⟨rfl, e⟩ | ⟨_, rfl, e⟩ | ⟨_, rfl, e⟩ |
    ⟨_, rfl | rfl, e⟩ | ⟨_, rfl, _, e⟩ | ⟨_, rfl, -, e⟩ <;> rw [e] at h <;> cases h <;> rfl

/-- A step drives `frame_done` as the row of the operation it performs says (R32). -/
theorem step_frameDone {s t : State} (h : step s = .next t) : t.frameDone = publishes (fetch s) := by
  obtain ⟨u, hu, rfl⟩ := step_eq_next.mp h
  rw [State.nextEdge_frameDone, exec_frameDone hu]

/-- A step with `frame_done` = 1 publishes the buffer as it stood before the step, and the edge is over (R105). -/
theorem step_eq_publish_of_frameDone {s t : State} (h : step s = .next t) (hd : t.frameDone = true) :
    t = (publish (consumes (fetch s)) s).nextEdge := by
  obtain ⟨u, hu, rfl⟩ := step_eq_next.mp h
  have hp : publishes (fetch s) = true := step_frameDone h ▸ hd
  rw [exec_of_publishes s hp] at hu
  cases hu
  rfl

/-- Settles O10: `frame_done` is the row's `publishes`, and a step that drives it is `publish` on the state before. -/
theorem frameDoneExactlyOnComplete : Obligations.FrameDoneExactlyOnComplete := by
  intro s t h
  refine ⟨?_, fun hd => ?_⟩
  · rw [step_frameDone h, publishes_iff]
  · rw [step_eq_publish_of_frameDone h hd]
    simp [publish_eq]

end Sys2Proof.Machine

/-! ### RESET, IDLE and NOBYTE: selection, result and frame (R81 to R83) -/

namespace Sys2Proof.Machine

/-- A poll that has taken its byte selects an operation that consumes one, in every cursor class (R85, R84). -/
theorem consumes_decodeConsumed (cfg : Cfg) (cls : ClassCode) (val : Byte) :
    consumes (decodeConsumed cfg cls val) = true := by
  unfold decodeConsumed
  split_ifs <;> rfl

/-- The priority order of the tests of a step, down to the byte (R85, R86): what follows the test of `in_valid`
consumes. -/
theorem fetch_priority (s : State) :
    ((pinsNow s).rst = true ∧ fetch s = .reset) ∨
    ((pinsNow s).rst = false ∧ (pinsNow s).poll = false ∧ fetch s = .idle) ∨
    ((pinsNow s).rst = false ∧ (pinsNow s).poll = true ∧ s.cfg.completionGate = .ungated ∧
      s.cursor = s.cfg.capacity ∧ fetch s = .completeUngated) ∨
    ((pinsNow s).rst = false ∧ (pinsNow s).poll = true ∧ (pinsNow s).inValid = false ∧
      (s.cfg.completionGate = .ungated → s.cursor ≠ s.cfg.capacity) ∧ fetch s = .noByte) ∨
    ((pinsNow s).rst = false ∧ (pinsNow s).poll = true ∧ (pinsNow s).inValid = true ∧ consumes (fetch s) = true) := by
  have e := fetch_eq s
  simp only [classOf_eq_complete, Bool.not_eq_true'] at e
  split_ifs at e with hr hp hc hv hd
  · exact .inl ⟨hr, e⟩
  · exact .inr (.inl ⟨eq_false_of_ne_true hr, hp, e⟩)
  · exact .inr (.inr (.inl ⟨eq_false_of_ne_true hr, eq_true_of_ne_false hp, hc.1, hc.2, e⟩))
  · exact .inr (.inr (.inr (.inl
      ⟨eq_false_of_ne_true hr, eq_true_of_ne_false hp, hv, fun hg hcap => hc ⟨hg, hcap⟩, e⟩)))
  · exact .inr (.inr (.inr (.inr
      ⟨eq_false_of_ne_true hr, eq_true_of_ne_false hp, eq_true_of_ne_false hv, e ▸ rfl⟩)))
  · exact .inr (.inr (.inr (.inr
      ⟨eq_false_of_ne_true hr, eq_true_of_ne_false hp, eq_true_of_ne_false hv, e ▸ consumes_decodeConsumed ..⟩)))

/-- A consuming operation is none of those that do not consume. -/
theorem ne_of_consumes {i j : Instr} (hi : consumes i = true) (hj : consumes j = false) : i ≠ j := by
  rintro rfl
  simp [hi] at hj

/-- When RESET is selected (R81). -/
theorem fetch_eq_reset_iff (s : State) : fetch s = .reset ↔ (pinsNow s).rst = true := by
  rcases fetch_priority s with ⟨hr, hf⟩ | ⟨hr, -, hf⟩ | ⟨hr, -, -, -, hf⟩ | ⟨hr, -, -, -, hf⟩ | ⟨hr, -, -, hf⟩
  · simp [hr, hf]
  · simp [hr, hf]
  · simp [hr, hf]
  · simp [hr, hf]
  · simp [hr, ne_of_consumes hf (j := .reset) rfl]

/-- When IDLE is selected (R82). -/
theorem fetch_eq_idle_iff (s : State) : fetch s = .idle ↔ (pinsNow s).rst = false ∧ (pinsNow s).poll = false := by
  rcases fetch_priority s with ⟨hr, hf⟩ | ⟨hr, hp, hf⟩ | ⟨-, hp, -, -, hf⟩ | ⟨-, hp, -, -, hf⟩ | ⟨-, hp, -, hf⟩
  · simp [hr, hf]
  · simp [hr, hp, hf]
  · simp [hp, hf]
  · simp [hp, hf]
  · simp [hp, ne_of_consumes hf (j := .idle) rfl]

/-- When NOBYTE is selected (R83): under UNGATED the completion test comes first. -/
theorem fetch_eq_noByte_iff (s : State) :
    fetch s = .noByte ↔ (pinsNow s).rst = false ∧ (pinsNow s).poll = true ∧ (pinsNow s).inValid = false ∧
      (s.cfg.completionGate = .ungated → s.cursor ≠ s.cfg.capacity) := by
  rcases fetch_priority s with ⟨hr, hf⟩ | ⟨-, hp, hf⟩ | ⟨-, -, hg, hc, hf⟩ | ⟨hr, hp, hv, hn, hf⟩ | ⟨-, -, hv, hf⟩
  · simp [hr, hf]
  · simp [hp, hf]
  · simp [hg, hc, hf]
  · exact ⟨fun _ => ⟨hr, hp, hv, hn⟩, fun _ => hf⟩
  · simp [hv, ne_of_consumes hf (j := .noByte) rfl]

/-- `restart` writes CURSOR, RAW, SCALED and the outputs and nothing else. -/
theorem restart_eq (s : State) :
    restart s =
      { s with
        cursor := 0, cursor_le := Nat.zero_le _, raw := List.replicate s.cfg.n 0,
        scaled := List.replicate s.cfg.n 0, inTake := false, frameDone := false } :=
  rfl

/-- The frame of IDLE and NOBYTE: no state element changes and both outputs are 0 (R82, R83). -/
theorem keepAll_frame (s : State) :
    (keepAll s).cursor = s.cursor ∧ KeepsChannels s (keepAll s) ∧ KeepsBuf s (keepAll s) ∧
      KeepsSetting s (keepAll s) ∧ Drives (keepAll s) false false := by
  rw [keepAll_eq]
  exact ⟨rfl, ⟨rfl, rfl⟩, fun _ => rfl, ⟨rfl, rfl, rfl⟩, ⟨rfl, rfl⟩⟩

/-- Settles O16: RESET is the first test of the priority order, and its result is `restart`. -/
theorem resetOperation : Obligations.ResetOperation := by
  refine ⟨fetch_eq_reset_iff, fun s => ⟨restart s, rfl, ?_⟩⟩
  rw [restart_eq]
  exact ⟨rfl, rfl, rfl, fun _ => rfl, ⟨rfl, rfl, rfl⟩, ⟨rfl, rfl⟩⟩

/-- Settles O17: the second test of the priority order, and the frame of `keepAll`. -/
theorem idleOperation : Obligations.IdleOperation :=
  ⟨fetch_eq_idle_iff, fun s => ⟨keepAll s, rfl, keepAll_frame s⟩⟩

/-- Settles O18: the test of `in_valid`, after UNGATED's completion test, and the frame of `keepAll`. -/
theorem noByteOperation : Obligations.NoByteOperation :=
  ⟨fetch_eq_noByte_iff, fun s => ⟨keepAll s, rfl, keepAll_frame s⟩⟩

end Sys2Proof.Machine

/-! ### Header synchronisation: selection, result and frame (R90 to R93) -/

namespace Sys2Proof.Machine

/-- The codes of the two header classes differ (R64). -/
theorem clsSeek1_ne_clsSeek2 : clsSeek1 ≠ clsSeek2 := by decide

/-- The class is SEEK_HEADER_1 exactly at CURSOR 0 (R22, R64). -/
theorem classOf_eq_seek1 (capacity cursor : Nat) : classOf capacity cursor = clsSeek1 ↔ cursor = 0 := by
  rcases (by omega : cursor = 0 ∨ cursor = 1 ∨ 2 ≤ cursor) with rfl | rfl | h
  · simp
  · simp [clsSeek1_ne_clsSeek2.symm]
  · rw [classOf_of_two_le h]
    split <;> simp [clsSeek1, clsComplete, clsAccumulate, Nat.ne_zero_of_lt h]

/-- The class is SEEK_HEADER_2 exactly at CURSOR 1 (R22, R64). -/
theorem classOf_eq_seek2 (capacity cursor : Nat) : classOf capacity cursor = clsSeek2 ↔ cursor = 1 := by
  rcases (by omega : cursor = 0 ∨ cursor = 1 ∨ 2 ≤ cursor) with rfl | rfl | h
  · simp [clsSeek1_ne_clsSeek2]
  · simp
  · rw [classOf_of_two_le h]
    split <;> simp [clsSeek2, clsComplete, clsAccumulate, Nat.ne_of_gt h]

/-- A publishing operation is none of those that do not publish. -/
theorem ne_of_publishes {i j : Instr} (hi : publishes i = true) (hj : publishes j = false) : i ≠ j := by
  rintro rfl
  simp [hi] at hj

/-- An operation that consumes a byte and does not publish is selected exactly at a poll with a byte, away from
FRAME_COMPLETE, where the cursor class and the byte decode to it (R85, tests 4 to 6). -/
theorem fetch_eq_iff_decodeConsumed {i : Instr} (hi : consumes i = true) (hp : publishes i = false) (s : State) :
    fetch s = i ↔ (pinsNow s).rst = false ∧ (pinsNow s).poll = true ∧ (pinsNow s).inValid = true ∧
      s.cursor ≠ s.cfg.capacity ∧
      decodeConsumed s.cfg (classOf s.cfg.capacity s.cursor) (pinsNow s).inData = i := by
  rw [fetch_eq]
  simp only [classOf_eq_complete, Bool.not_eq_true']
  split_ifs with hr hpoll hc hv hd
  · simp [hr, (ne_of_consumes hi (j := .reset) rfl).symm]
  · simp [hpoll, (ne_of_consumes hi (j := .idle) rfl).symm]
  · simp [hc.2, ne_of_publishes (i := .completeUngated) rfl hp]
  · simp [hv, (ne_of_consumes hi (j := .noByte) rfl).symm]
  · simp [hd, ne_of_publishes (i := .complete _) rfl hp]
  · simp [hr, hpoll, hv, hd]

/-- In a header class the selection turns on CURSOR and the byte alone: CURSOR below 2 is not CAPACITY (R8). -/
theorem fetch_eq_iff_of_header {i : Instr} {k : Nat} {val : Byte} {P : Prop} (s : State) (hi : consumes i = true)
    (hp : publishes i = false) (hk : k < 2)
    (hd : decodeConsumed s.cfg (classOf s.cfg.capacity s.cursor) (pinsNow s).inData = i ↔
      s.cursor = k ∧ (pinsNow s).inData = val ∧ P) :
    fetch s = i ↔ (pinsNow s).rst = false ∧ (pinsNow s).poll = true ∧ (pinsNow s).inValid = true ∧
      s.cursor = k ∧ (pinsNow s).inData = val ∧ P := by
  have hcap : s.cursor = k → s.cursor ≠ s.cfg.capacity := by
    have := two_le_capacity s.cfg
    omega
  rw [fetch_eq_iff_decodeConsumed hi hp, hd, and_iff_right_of_imp fun h => hcap h.1]

/-- A consumed byte decodes to H1_MATCH exactly in SEEK_HEADER_1, where it is HEADER_BYTE_1 (R85, R90). -/
theorem decodeConsumed_eq_h1Match (cfg : Cfg) (cls : ClassCode) (b val : Byte) :
    decodeConsumed cfg cls b = .h1Match val ↔ cls = clsSeek1 ∧ b = val ∧ val = cfg.headerByte1 := by
  have := clsSeek1_ne_clsSeek2
  unfold decodeConsumed
  split_ifs <;> grind

/-- A consumed byte decodes to H1_MISS exactly in SEEK_HEADER_1, where it is not HEADER_BYTE_1 (R85, R91). -/
theorem decodeConsumed_eq_h1Miss (cfg : Cfg) (cls : ClassCode) (b val : Byte) :
    decodeConsumed cfg cls b = .h1Miss val ↔ cls = clsSeek1 ∧ b = val ∧ val ≠ cfg.headerByte1 := by
  have := clsSeek1_ne_clsSeek2
  unfold decodeConsumed
  split_ifs <;> grind

/-- A consumed byte decodes to H2_MATCH exactly in SEEK_HEADER_2, where it is HEADER_BYTE_2 (R85, R92). -/
theorem decodeConsumed_eq_h2Match (cfg : Cfg) (cls : ClassCode) (b val : Byte) :
    decodeConsumed cfg cls b = .h2Match val ↔ cls = clsSeek2 ∧ b = val ∧ val = cfg.headerByte2 := by
  have := clsSeek1_ne_clsSeek2
  unfold decodeConsumed
  split_ifs <;> grind

/-- A consumed byte decodes to H2_MISS exactly in SEEK_HEADER_2, where it is not HEADER_BYTE_2 (R85, R93). -/
theorem decodeConsumed_eq_h2Miss (cfg : Cfg) (cls : ClassCode) (b val : Byte) :
    decodeConsumed cfg cls b = .h2Miss val ↔ cls = clsSeek2 ∧ b = val ∧ val ≠ cfg.headerByte2 := by
  have := clsSeek1_ne_clsSeek2
  unfold decodeConsumed
  split_ifs <;> grind

/-- The result and frame of an append: the byte stands at its address, CURSOR is the new one, the byte is taken, and
nothing else changes (R57 (a)). -/
theorem appendByte_frame (a : Nat) (v : Byte) (c : Nat) (s : State) (h : c ≤ s.cfg.capacity) :
    byteAt (appendByte a v c s h) a = v ∧ (appendByte a v c s h).cursor = c ∧
      KeepsBufExcept s (appendByte a v c s h) a ∧ KeepsChannels s (appendByte a v c s h) ∧
      KeepsSetting s (appendByte a v c s h) ∧ Drives (appendByte a v c s h) true false := by
  obtain ⟨hcfg, hcursor, -, hraw, hscaled, htake, hdone, hinputs, hclock⟩ := appendByte_fields s a v c h
  exact ⟨byteAt_appendByte_same s a v c h, hcursor, fun _ hb => byteAt_appendByte_other s v c h hb,
    ⟨hraw, hscaled⟩, ⟨hcfg, hinputs, hclock⟩, ⟨htake, hdone⟩⟩

/-- The frame of H1_MISS and H2_MISS: the byte is taken and no state element changes (R91, R93). -/
theorem dropByte_frame (s : State) :
    (dropByte s).cursor = s.cursor ∧ KeepsBuf s (dropByte s) ∧ KeepsChannels s (dropByte s) ∧
      KeepsSetting s (dropByte s) ∧ Drives (dropByte s) true false := by
  rw [dropByte_eq]
  exact ⟨rfl, fun _ => rfl, ⟨rfl, rfl⟩, ⟨rfl, rfl, rfl⟩, ⟨rfl, rfl⟩⟩

/-- Settles O19: the test of the byte in SEEK_HEADER_1, and the append at address 0. -/
theorem headerOneMatchOperation : Obligations.HeaderOneMatchOperation := by
  refine ⟨fun s val => fetch_eq_iff_of_header s rfl rfl Nat.two_pos ?_,
    fun s val => ⟨_, rfl, appendByte_frame 0 val 1 s (one_le_capacity s.cfg)⟩⟩
  rw [decodeConsumed_eq_h1Match, classOf_eq_seek1]

/-- Settles O20: the test of the byte in SEEK_HEADER_1, and the frame of `dropByte`. -/
theorem headerOneMissOperation : Obligations.HeaderOneMissOperation := by
  refine ⟨fun s val => fetch_eq_iff_of_header s rfl rfl Nat.two_pos ?_,
    fun s val => ⟨_, rfl, dropByte_frame s⟩⟩
  rw [decodeConsumed_eq_h1Miss, classOf_eq_seek1]

/-- Settles O21: the test of the byte in SEEK_HEADER_2, and the append at address 1. -/
theorem headerTwoMatchOperation : Obligations.HeaderTwoMatchOperation := by
  refine ⟨fun s val => fetch_eq_iff_of_header s rfl rfl Nat.one_lt_two ?_,
    fun s val => ⟨_, rfl, appendByte_frame 1 val 2 s (two_le_capacity s.cfg)⟩⟩
  rw [decodeConsumed_eq_h2Match, classOf_eq_seek2]

/-- Settles O22: the test of the byte in SEEK_HEADER_2, and the frame of `dropByte`, which keeps CURSOR at 1. -/
theorem headerTwoMissOperation : Obligations.HeaderTwoMissOperation := by
  refine ⟨fun s val => fetch_eq_iff_of_header s rfl rfl Nat.one_lt_two ?_,
    fun s val => ⟨_, rfl, dropByte_frame s⟩⟩
  rw [decodeConsumed_eq_h2Miss, classOf_eq_seek2]

end Sys2Proof.Machine

/-! ### Payload accumulation: selection, result and frame of FILL (R100) -/

namespace Sys2Proof.Machine

/-- A consumed byte decodes to FILL exactly outside the two header classes (R85, R100). -/
theorem decodeConsumed_eq_fill (cfg : Cfg) (cls : ClassCode) (b val : Byte) :
    decodeConsumed cfg cls b = .fill val ↔ cls ≠ clsSeek1 ∧ cls ≠ clsSeek2 ∧ b = val := by
  unfold decodeConsumed
  split_ifs with h1 _ h2 <;> simp [*]

/-- When FILL is selected (R100): CURSOR past both header positions and short of CAPACITY. -/
theorem fetch_eq_fill_iff (s : State) (val : Byte) :
    fetch s = .fill val ↔ (pinsNow s).rst = false ∧ (pinsNow s).poll = true ∧ (pinsNow s).inValid = true ∧
      2 ≤ s.cursor ∧ s.cursor ≤ s.cfg.capacity - 1 ∧ (pinsNow s).inData = val := by
  have hrange : ¬s.cursor = s.cfg.capacity ∧ ¬s.cursor = 0 ∧ ¬s.cursor = 1 ↔
      2 ≤ s.cursor ∧ s.cursor ≤ s.cfg.capacity - 1 := by
    have := s.cursor_le
    omega
  simp only [fetch_eq_iff_decodeConsumed (i := .fill val) rfl rfl, decodeConsumed_eq_fill, ne_eq, classOf_eq_seek1,
    classOf_eq_seek2]
  tauto

/-- Settles O23: FILL takes what the header classes and FRAME_COMPLETE leave, and appends at CURSOR. -/
theorem fillOperation : Obligations.FillOperation := by
  refine ⟨fetch_eq_fill_iff, fun s val h => ⟨_, exec_fill val h, ?_⟩⟩
  obtain ⟨hbyte, hcursor, hframe⟩ := appendByte_frame s.cursor val (s.cursor + 1) s h
  exact ⟨hbyte, hcursor, hcursor.trans_le h, hframe⟩

end Sys2Proof.Machine

/-! ### The field extractor (R61, R106) -/

namespace Sys2Proof.Machine

/-- The extracted field is the concatenation of its two bytes, the one at the higher address on top (R42, R63). -/
theorem assemble_eq_append (lo hi : Byte) : assemble lo hi = hi ++ lo := by
  rw [assemble, BitVec.append_def, BitVec.shiftLeftZeroExtend_eq, BitVec.setWidth'_eq]

/-- The field as an unsigned number (R106). -/
theorem assemble_toNat (lo hi : Byte) : (assemble lo hi).toNat = 256 * hi.toNat + lo.toNat := by
  rw [assemble_eq_append, BitVec.toNat_append, ← Nat.shiftLeft_add_eq_or_of_lt lo.isLt, Nat.shiftLeft_eq, Nat.mul_comm]

/-- The field bit by bit: the low byte below bit 8, the high byte from there (R61). -/
theorem assemble_getLsbD (lo hi : Byte) (k : Nat) :
    (assemble lo hi).getLsbD k = if k < 8 then lo.getLsbD k else hi.getLsbD (k - 8) := by
  rw [assemble_eq_append, BitVec.getLsbD_append]

/-- EXTRACT16 reads the addresses 2 + 2i and 3 + 2i (R41, R106). -/
theorem extract16_eq_assemble (s : State) (i : Nat) :
    extract16 s i = assemble (byteAt s (2 + 2 * i)) (byteAt s (3 + 2 * i)) := by
  have haddr : 2 + 2 * i + 1 = 3 + 2 * i := by omega
  rw [extract16, memRead2, lowAddress, haddr]

/-- Settles O26: the field is the concatenation of the bytes at the two addresses of the channel. -/
theorem extractorIsLittleEndian : Obligations.ExtractorIsLittleEndian := by
  intro s i hi
  obtain ⟨-, hhigh⟩ := field_addresses_lt_capacity s.cfg hi
  rw [extract16_eq_assemble]
  refine ⟨hhigh, rfl, assemble_toNat _ _, fun k hk => ?_, fun k hk _ => ?_⟩
  · rw [assemble_getLsbD, if_pos hk]
  · rw [assemble_getLsbD, if_neg (Nat.not_lt.mpr hk)]

end Sys2Proof.Machine

/-! ### Frame completion: selection, result and frame of COMPLETE (R105) -/

namespace Sys2Proof.Machine

/-- The operation that a consumed byte decodes to, in every cursor class of tests 4 to 6, does not publish (R85). -/
theorem publishes_decodeConsumed (cfg : Cfg) (cls : ClassCode) (val : Byte) :
    publishes (decodeConsumed cfg cls val) = false := by
  unfold decodeConsumed
  split_ifs <;> rfl

/-- A gate that is not UNGATED is BYTE_GATED. -/
theorem gate_ne_ungated_iff (g : CompletionGate) : g ≠ .ungated ↔ g = .byteGated := by
  cases g <;> simp

/-- When COMPLETE is selected under BYTE_GATED (R105): it is the test after that of `in_valid`. -/
theorem fetch_eq_complete_iff (s : State) (val : Byte) :
    fetch s = .complete val ↔ s.cfg.completionGate = .byteGated ∧ (pinsNow s).rst = false ∧
      (pinsNow s).poll = true ∧ (pinsNow s).inValid = true ∧ s.cursor = s.cfg.capacity ∧ (pinsNow s).inData = val := by
  rw [fetch_eq]
  simp only [classOf_eq_complete, Bool.not_eq_true', ← gate_ne_ungated_iff]
  split_ifs with hr hpoll hc hv hd
  · simp [hr]
  · simp [hpoll]
  · simp [hc.1]
  · simp [hv]
  · have hgate : s.cfg.completionGate ≠ .ungated := fun hg => hc ⟨hg, hd⟩
    simp [hr, hpoll, hv, hd, hgate]
  · simp [hd, (ne_of_publishes (i := .complete val) rfl (publishes_decodeConsumed ..)).symm]

/-- When COMPLETE is selected under UNGATED (R105, R68): its test stands before that of `in_valid`. -/
theorem fetch_eq_completeUngated_iff (s : State) :
    fetch s = .completeUngated ↔ s.cfg.completionGate = .ungated ∧ (pinsNow s).rst = false ∧
      (pinsNow s).poll = true ∧ s.cursor = s.cfg.capacity := by
  rw [fetch_eq]
  simp only [classOf_eq_complete, Bool.not_eq_true']
  split_ifs with hr hpoll hc hv hd
  · simp [hr]
  · simp [hpoll]
  · simp [hr, hpoll, hc]
  · simpa [hr, hpoll] using hc
  · simpa [hr, hpoll] using hc
  · simpa [hr, hpoll, ne_of_consumes (j := .completeUngated) (consumes_decodeConsumed ..) rfl] using hc

/-- The channel registers after a completion: N fields of BUF, each with its RESCALE (R105). -/
theorem publish_channels (take : Bool) (s : State) :
    (publish take s).raw.length = s.cfg.n ∧ (publish take s).scaled.length = s.cfg.n ∧
      ∀ c, c < s.cfg.n → (publish take s).raw[c]? = some (extract16 s c) ∧
        (publish take s).scaled[c]? = some (rescale s.cfg (extract16 s c)) := by
  rw [publish_eq]
  refine ⟨extractAll_length s, by simp, fun c hc => ?_⟩
  have hfield := extractAll_getElem? s hc
  exact ⟨hfield, by simp [hfield]⟩

/-- The frame of a completion: CURSOR restarts, BUF and the setting stay, `frame_done` is driven (R105). -/
theorem publish_frame (take : Bool) (s : State) :
    (publish take s).cursor = 0 ∧ KeepsBuf s (publish take s) ∧ KeepsSetting s (publish take s) ∧
      Drives (publish take s) take true := by
  rw [publish_eq]
  exact ⟨rfl, fun _ => rfl, ⟨rfl, rfl, rfl⟩, ⟨rfl, rfl⟩⟩

/-- Settles O25: the completion tests of the priority order, and `publish`, whose fields EXTRACT16 reads. -/
theorem completeOperation : Obligations.CompleteOperation := by
  refine ⟨fetch_eq_complete_iff, fetch_eq_completeUngated_iff, fun s i take hi => ⟨publish take s, ?_, ?_⟩⟩
  · rcases hi with ⟨⟨val, rfl⟩, rfl⟩ | ⟨rfl, rfl⟩ <;> rfl
  · obtain ⟨hcursor, hframe⟩ := publish_frame take s
    obtain ⟨hraw, hscaled, hchannel⟩ := publish_channels take s
    refine ⟨hcursor, hraw, hscaled, fun c hc => ?_, hframe⟩
    obtain ⟨hr, hq⟩ := hchannel c hc
    obtain ⟨-, -, hnat, -⟩ := extractorIsLittleEndian s c hc
    exact ⟨extract16 s c, hr, hnat, hq⟩

end Sys2Proof.Machine

/-! ### Encodings and the operation map (R65 to R68, R74) -/

namespace Sys2Proof.Machine

/-- The byte of a dispatch word stands below its other fields (table T65). -/
theorem packDispatch_eq_or (rst poll : Bool) (cls : ClassCode) (inValid : Bool) (inData : Byte) :
    packDispatch rst poll cls inValid inData = packDispatch rst poll cls inValid 0 ||| inData.setWidth 13 := by
  apply BitVec.eq_of_getLsbD_eq
  intro i hi
  rw [BitVec.getLsbD_or, BitVec.getLsbD_setWidth, getLsbD_pack, getLsbD_pack]
  by_cases h8 : i < 8
  · simp [h8, hi]
  · simp [h8, BitVec.getLsbD_of_ge inData i (Nat.not_lt.mp h8)]

/-- The decoder on a poll with a byte: a pattern of the table with the byte in its low bits (T66, R68). -/
theorem decode_pattern_or {pattern : DispatchWord} {cls : ClassCode}
    (hpattern : packDispatch false true cls true 0 = pattern) (cfg : Cfg) (val : Byte) :
    decode cfg (pattern ||| val.setWidth 13) =
      if cfg.completionGate = .ungated ∧ cls = clsComplete then .completeUngated
      else if cls = clsComplete then .complete val
      else decodeConsumed cfg cls val := by
  rw [← hpattern, ← packDispatch_eq_or, decode_pack]
  rfl

/-- Settles O1: each encoding is a packed word whose fields lead the decoder to the row of the operation. -/
theorem decodeOfEncode : Obligations.DecodeOfEncode := by
  intro cfg i h
  cases i with
  | reset => exact decode_pack cfg true false clsSeek1 false 0
  | idle => exact decode_pack cfg false false clsSeek1 false 0
  | noByte =>
    refine (decode_pack cfg false true clsSeek1 false 0).trans ?_
    simp [clsSeek1, clsComplete]
  | complete val =>
    have hgate : cfg.completionGate = .byteGated := of_decide_eq_true h
    refine (decode_pattern_or (cls := clsComplete) (by decide) cfg val).trans ?_
    simp [hgate]
  | completeUngated =>
    have hgate : cfg.completionGate = .ungated := of_decide_eq_true h
    refine (decode_pack cfg false true clsComplete false 0).trans ?_
    simp [hgate]
  | h1Match val =>
    refine (decode_pattern_or (cls := clsSeek1) (by decide) cfg val).trans ?_
    simpa [clsSeek1, clsComplete, decodeConsumed] using of_decide_eq_true h
  | h1Miss val =>
    refine (decode_pattern_or (cls := clsSeek1) (by decide) cfg val).trans ?_
    simpa [clsSeek1, clsComplete, decodeConsumed] using of_decide_eq_true h
  | h2Match val =>
    refine (decode_pattern_or (cls := clsSeek2) (by decide) cfg val).trans ?_
    simpa [clsSeek1, clsSeek2, clsComplete, decodeConsumed] using of_decide_eq_true h
  | h2Miss val =>
    refine (decode_pattern_or (cls := clsSeek2) (by decide) cfg val).trans ?_
    simpa [clsSeek1, clsSeek2, clsComplete, decodeConsumed] using of_decide_eq_true h
  | fill val =>
    refine (decode_pattern_or (cls := clsAccumulate) (by decide) cfg val).trans ?_
    simp [clsSeek1, clsSeek2, clsAccumulate, clsComplete, decodeConsumed]

/-- The operation that a consumed byte decodes to is one of the configuration, in every cursor class (R85). -/
theorem wellFormed_decodeConsumed (cfg : Cfg) (cls : ClassCode) (val : Byte) :
    (decodeConsumed cfg cls val).wellFormed cfg = true := by
  unfold decodeConsumed
  split_ifs with _ hmatch _ hmatch
  · exact decide_eq_true hmatch
  · exact decide_eq_true hmatch
  · exact decide_eq_true hmatch
  · exact decide_eq_true hmatch
  · rfl

/-- Settles O3: along the tests of the decoder; the test of UNGATED's COMPLETE leaves BYTE_GATED for the other one. -/
theorem decodedIsWellFormed : Obligations.DecodedIsWellFormed := by
  intro cfg dw
  unfold decode
  split_ifs with _ _ hungated _ hcomplete
  · rfl
  · rfl
  · exact decide_eq_true hungated.1
  · rfl
  · exact decide_eq_true ((gate_ne_ungated_iff _).mp fun hgate => hungated ⟨hgate, hcomplete⟩)
  · exact wellFormed_decodeConsumed ..

/-- Settles O2: the words are decoded one by one. -/
theorem decodeSampleWords : Obligations.DecodeSampleWords := by
  constructor <;> decide

/-! A row of the operation map looks at the fields of a word one by one. -/

/-- Masking a dispatch word masks each of its fields (R66). -/
theorem pack_and_pack (r p v r' p' v' : Bool) (c c' : ClassCode) (d d' : Byte) :
    packDispatch r p c v d &&& packDispatch r' p' c' v' d' =
      packDispatch (r && r') (p && p') (c &&& c') (v && v') (d &&& d') := by
  apply BitVec.eq_of_getLsbD_eq
  intro i _
  simp only [BitVec.getLsbD_and, getLsbD_pack]
  split_ifs <;> grind

/-- Two dispatch words are equal exactly if they agree in every field. -/
theorem pack_eq_pack_iff (r p v r' p' v' : Bool) (c c' : ClassCode) (d d' : Byte) :
    packDispatch r p c v d = packDispatch r' p' c' v' d' ↔ r = r' ∧ p = p' ∧ c = c' ∧ v = v' ∧ d = d' := by
  constructor
  · intro h
    refine ⟨?_, ?_, ?_, ?_, ?_⟩
    · simpa using congrArg rstField h
    · simpa using congrArg pollField h
    · simpa using congrArg clsField h
    · simpa using congrArg inValidField h
    · simpa using congrArg inDataField h
  · rintro ⟨rfl, rfl, rfl, rfl, rfl⟩
    rfl

/-- A row accepts a word field by field (R66). -/
theorem accepts_pack_iff (mnemonic : String) (excluded : Option Byte) (pr pp pv mr mp mv r p v : Bool)
    (pc mc c : ClassCode) (pd md d : Byte) :
    Row.accepts ⟨mnemonic, packDispatch pr pp pc pv pd, packDispatch mr mp mc mv md, excluded⟩
      (packDispatch r p c v d) =
      decide (((r && mr) = pr ∧ (p && mp) = pp ∧ c &&& mc = pc ∧ (v && mv) = pv ∧ d &&& md = pd) ∧
        excluded ≠ some d) := by
  simp only [Row.accepts, pack_and_pack, pack_eq_pack_iff, inDataField_pack, Bool.decide_and]

section Rows

variable (cfg : Cfg) (r p v : Bool) (c : ClassCode) (d : Byte)

theorem accepts_reset : Row.accepts ⟨"RESET", 0x1000, 0x1000, none⟩ (packDispatch r p c v d) = r := by
  refine (accepts_pack_iff "RESET" none true false false true false false r p v 0 0 c 0 0 d).trans ?_
  simp

theorem accepts_idle : Row.accepts ⟨"IDLE", 0x0000, 0x1800, none⟩ (packDispatch r p c v d) = (!r && !p) := by
  refine (accepts_pack_iff "IDLE" none false false false true true false r p v 0 0 c 0 0 d).trans ?_
  simp

theorem accepts_noByte :
    Row.accepts ⟨"NOBYTE", 0x0800, 0x1900, none⟩ (packDispatch r p c v d) = (!r && p && !v) := by
  refine (accepts_pack_iff "NOBYTE" none false true false true true true r p v 0 0 c 0 0 d).trans ?_
  simp [Bool.and_assoc]

theorem accepts_completeUngated :
    Row.accepts ⟨"COMPLETE.UNGATED", 0x0E00, 0x1E00, none⟩ (packDispatch r p c v d) =
      (!r && p && decide (c = clsComplete)) := by
  refine (accepts_pack_iff "COMPLETE.UNGATED" none false true false true true false r p v clsComplete
    (BitVec.allOnes 2) c 0 0 d).trans ?_
  simp [Bool.and_assoc, -BitVec.reduceAllOnes]

/-- The rows that look at the class and need a byte, whatever it is. -/
theorem accepts_class (mnemonic : String) (cls : ClassCode) (excluded : Option Byte) :
    Row.accepts ⟨mnemonic, packDispatch false true cls true 0, 0x1F00, excluded⟩ (packDispatch r p c v d) =
      (!r && p && v && decide (c = cls) && decide (excluded ≠ some d)) := by
  refine (accepts_pack_iff mnemonic excluded false true true true true true r p v cls
    (BitVec.allOnes 2) c 0 0 d).trans ?_
  simp only [BitVec.and_allOnes, Bool.and_true]
  grind

/-- The rows that look at every bit, with a header byte in the low ones. -/
theorem accepts_word (mnemonic : String) (cls : ClassCode) (val : Byte) :
    Row.accepts ⟨mnemonic, packDispatch false true cls true 0 ||| val.setWidth 13, 0x1FFF, none⟩
      (packDispatch r p c v d) = (!r && p && v && decide (c = cls) && decide (d = val)) := by
  rw [← packDispatch_eq_or]
  refine (accepts_pack_iff mnemonic none false true true true true true r p v cls
    (BitVec.allOnes 2) c val (BitVec.allOnes 8) d).trans ?_
  simp only [BitVec.and_allOnes, Bool.and_true]
  grind

end Rows

/-- The rows of the operation map, the patterns that a consumed byte completes written by their cursor class. -/
theorem operationMap_eq (cfg : Cfg) :
    operationMap cfg =
      [⟨"RESET", 0x1000, 0x1000, none⟩, ⟨"IDLE", 0x0000, 0x1800, none⟩] ++ gateRows cfg.completionGate ++
      [⟨"H1_MATCH", packDispatch false true clsSeek1 true 0 ||| cfg.headerByte1.setWidth 13, 0x1FFF, none⟩,
       ⟨"H1_MISS", packDispatch false true clsSeek1 true 0, 0x1F00, some cfg.headerByte1⟩,
       ⟨"H2_MATCH", packDispatch false true clsSeek2 true 0 ||| cfg.headerByte2.setWidth 13, 0x1FFF, none⟩,
       ⟨"H2_MISS", packDispatch false true clsSeek2 true 0, 0x1F00, some cfg.headerByte2⟩,
       ⟨"FILL", packDispatch false true clsAccumulate true 0, 0x1F00, none⟩] := rfl

/-- The row of COMPLETE under BYTE_GATED. -/
theorem accepts_complete (r p v : Bool) (c : ClassCode) (d : Byte) :
    Row.accepts ⟨"COMPLETE", 0x0F00, 0x1F00, none⟩ (packDispatch r p c v d) =
      (!r && p && v && decide (c = clsComplete)) := by
  refine (accepts_class r p v c d "COMPLETE" clsComplete none).trans ?_
  simp

/-- The four cursor class codes (R64). -/
theorem class_cases (c : ClassCode) : c = clsSeek1 ∨ c = clsSeek2 ∨ c = clsAccumulate ∨ c = clsComplete := by
  revert c
  decide

/-- The first row that accepts a word, in the priority order of the gate, on the fields of the word. -/
theorem find_operationMap_pack (cfg : Cfg) (r p v : Bool) (c : ClassCode) (d : Byte) :
    ((operationMap cfg).find? fun row => row.accepts (packDispatch r p c v d)).map Row.mnemonic =
      some (decode cfg (packDispatch r p c v d)).mnemonic := by
  rw [operationMap_eq, decode_pack]
  cases hgate : cfg.completionGate <;>
    simp only [gateRows, List.cons_append, List.nil_append, List.find?_cons, accepts_reset, accepts_idle,
      accepts_noByte, accepts_complete, accepts_completeUngated, accepts_class, accepts_word, decodeConsumed]
  all_goals
    cases r with
    | true => rfl
    | false =>
      cases p with
      | false => rfl
      | true =>
        cases v with
        | false => by_cases hc : c = clsComplete <;> simp [hc, Instr.mnemonic]
        | true =>
          rcases class_cases c with rfl | rfl | rfl | rfl
          · by_cases hd : d = cfg.headerByte1 <;> simp [clsSeek1, clsComplete, hd, eq_comm, Instr.mnemonic]
          · by_cases hd : d = cfg.headerByte2 <;> simp [clsSeek1, clsSeek2, clsComplete, hd, eq_comm, Instr.mnemonic]
          · simp [clsSeek1, clsSeek2, clsAccumulate, clsComplete, Instr.mnemonic]
          · simp [Instr.mnemonic]

/-- Settles O4: every word is packed from its fields, and the tests of the rows are those of the decoder. -/
theorem decodeTakesFirstRow : Obligations.DecodeTakesFirstRow := by
  intro cfg dw
  rw [← pack_fields dw]
  exact find_operationMap_pack ..

/-- Settles O5: the bits `rst`, `poll`, `in_valid` in this order, then the class, then the header byte leave one row. -/
theorem exactlyOneRowAccepts : Obligations.ExactlyOneRowAccepts := by
  intro cfg dw hgate
  rw [← pack_fields dw, operationMap_eq, hgate]
  generalize rstField dw = r, pollField dw = p, clsField dw = c, inValidField dw = v, inDataField dw = d
  simp only [gateRows, List.cons_append, List.nil_append, List.filter_cons, List.filter_nil, accepts_reset,
    accepts_idle, accepts_noByte, accepts_complete, accepts_class, accepts_word]
  cases r with
  | true => simp
  | false =>
    cases p with
    | false => simp
    | true =>
      cases v with
      | false => simp
      | true =>
        rcases class_cases c with rfl | rfl | rfl | rfl
        · by_cases hd : d = cfg.headerByte1 <;> simp [clsSeek1, clsSeek2, clsAccumulate, clsComplete, hd, eq_comm]
        · by_cases hd : d = cfg.headerByte2 <;> simp [clsSeek1, clsSeek2, clsAccumulate, clsComplete, hd, eq_comm]
        · simp [clsSeek1, clsSeek2, clsAccumulate, clsComplete]
        · simp [clsSeek1, clsSeek2, clsAccumulate, clsComplete]

/-! A word of the opcode table, placed where the next step dispatches (log entry 7). -/

/-- With room for every class, the placed CURSOR is of the word's class (R22, R64). -/
theorem classOf_cursorOfClass {capacity : Nat} (h : 3 ≤ capacity) (cls : ClassCode) (cursor : Nat) :
    classOf capacity (cursorOfClass capacity cls cursor) = cls := by
  have htwo : 2 ≠ capacity := by omega
  unfold cursorOfClass
  split_ifs with hcls h1 h2 h3
  · exact hcls
  · rw [classOf_zero, h1]
  · rw [classOf_one, h2]
  · rw [classOf_of_two_le (by omega), if_pos rfl, h3]
  · rw [classOf_of_two_le le_rfl, if_neg htwo]
    rcases class_cases cls with hc | hc | hc | hc
    · exact absurd hc h1
    · exact absurd hc h2
    · exact hc.symm
    · exact absurd hc h3

/-- The next step dispatches on the placed word. -/
theorem dispatchWord_placeWord {s : State} (h : 3 ≤ s.cfg.capacity) (dw : DispatchWord) :
    dispatchWord (placeWord s dw) = dw := by
  calc dispatchWord (placeWord s dw)
      = packDispatch (rstField dw) (pollField dw)
          (classOf s.cfg.capacity (cursorOfClass s.cfg.capacity (clsField dw) s.cursor)) (inValidField dw)
          (inDataField dw) := rfl
    _ = dw := by rw [classOf_cursorOfClass h, pack_fields]

/-- As the opcode table presumes the configuration, its other fields are not looked at. -/
theorem decode_tableCfg (cfg cfg' : Cfg) (word dw : DispatchWord) :
    decode (tableCfg cfg word) dw = decode (tableCfg cfg' word) dw := rfl

/-- What `decodeTableWord` reads is the decoder's reading of the word's low 13 bits. -/
theorem decode_of_decodeTableWord {nbits w : Nat} {i : Instr} (h : decodeTableWord nbits w = some i) :
    decode (tableCfg Cfg.default (BitVec.ofNat 13 (tableWord nbits w))) (BitVec.ofNat 13 (tableWord nbits w)) = i := by
  unfold decodeTableWord decodeBits at h
  split_ifs at h
  · exact Option.some.inj h
  · cases h

/-- Settles O6: the placed state dispatches on the word, under a configuration that decodes as the table's. -/
theorem placedWordRunsNext : Obligations.PlacedWordRunsNext := by
  intro s nbits w i hcap hword
  have hfetch : fetch (s.withFetchWord nbits w) = i := by
    rw [fetch, State.withFetchWord, dispatchWord_placeWord hcap, ← decode_of_decodeTableWord hword]
    exact decode_tableCfg ..
  exact ⟨hfetch, by rw [step, hfetch]⟩

end Sys2Proof.Machine

/-! ### The step: it always answers, and what it drives and moves (R80 to R89) -/

namespace Sys2Proof.Machine

/-- The one operation that can be refused is FILL at FRAME_COMPLETE (log entry 5). -/
theorem exec_next_or_fill (i : Instr) (s : State) :
    (∃ t, exec i s = .next t) ∨ ∃ val, i = .fill val ∧ s.cursor = s.cfg.capacity := by
  rcases exec_cases i s with ⟨-, e⟩ | ⟨-, e⟩ | ⟨_, -, e⟩ | ⟨-, e⟩ | ⟨_, -, e⟩ | ⟨_, -, e⟩ | ⟨_, -, e⟩ | ⟨_, -, _, e⟩ |
    ⟨val, hi, hcap, -⟩
  case inr.inr.inr.inr.inr.inr.inr.inr => exact .inr ⟨val, hi, hcap⟩
  all_goals exact .inl ⟨_, e⟩

/-- The selected operation is not refused: FILL is selected below CAPACITY only (R66, R100). -/
theorem exec_fetch_next (s : State) : ∃ t, exec (fetch s) s = .next t := by
  refine (exec_next_or_fill (fetch s) s).resolve_right ?_
  rintro ⟨val, hfill, hcap⟩
  obtain ⟨-, -, -, -, hlt, -⟩ := (fetch_eq_fill_iff s val).mp hfill
  have := two_le_capacity s.cfg
  omega

/-- Settles O7: the decoded operation is the selected one, which is not refused. -/
theorem stepRunsDecodedOperation : Obligations.StepRunsDecodedOperation := by
  rintro s i rfl
  obtain ⟨t, ht⟩ := exec_fetch_next s
  exact ⟨t, ht, step_eq_next.mpr ⟨t, ht, rfl⟩⟩

/-- Settles O8: a case of O7. -/
theorem stepNeverStops : Obligations.StepNeverStops := by
  intro s
  obtain ⟨t, -, hstep⟩ := stepRunsDecodedOperation s _ rfl
  exact ⟨_, hstep⟩

/-- Settles O24: the address CURSOR is not below CAPACITY. -/
theorem fillOutsideBufferRefused : Obligations.FillOutsideBufferRefused :=
  fun _ _ hcap => dif_neg (Nat.not_lt.mpr hcap.ge)

/-- An operation that answers drives `in_take` as its row says (R84). -/
theorem exec_inTake {i : Instr} {s t : State} (h : exec i s = .next t) : t.inTake = consumes i := by
  rcases exec_cases i s with ⟨rfl, e⟩ | ⟨rfl | rfl, e⟩ | ⟨_, rfl, e⟩ | ⟨rfl, e⟩ | ⟨_, rfl, e⟩ | ⟨_, rfl, e⟩ |
    ⟨_, rfl | rfl, e⟩ | ⟨_, rfl, _, e⟩ | ⟨_, rfl, -, e⟩ <;> rw [e] at h <;> cases h <;> rfl

/-- A step drives `in_take` as the row of the operation it performs says (R84). -/
theorem step_inTake {s t : State} (h : step s = .next t) : t.inTake = consumes (fetch s) := by
  obtain ⟨u, hu, rfl⟩ := step_eq_next.mp h
  rw [State.nextEdge_inTake, exec_inTake hu]

/-- The selected operation consumes exactly where R84's function of the inputs and CURSOR is 1. -/
theorem consumes_fetch (s : State) : consumes (fetch s) = inTakeOf s.cfg s.cursor (pinsNow s) := by
  rw [fetch_eq]
  simp only [classOf_eq_complete, Bool.not_eq_true']
  split_ifs with hr hp hc hv hd
  · cases hgate : s.cfg.completionGate <;> simp [consumes, inTakeOf, hgate, hr]
  · cases hgate : s.cfg.completionGate <;> simp [consumes, inTakeOf, hgate, hp]
  · simp [consumes, inTakeOf, hc]
  · cases hgate : s.cfg.completionGate <;> simp [consumes, inTakeOf, hgate, hv]
  · have hgate := (gate_ne_ungated_iff _).mp fun hgate => hc ⟨hgate, hd⟩
    simp [consumes, inTakeOf, hgate, hr, hp, hv]
  · cases hgate : s.cfg.completionGate <;> simp [consumes_decodeConsumed, inTakeOf, hgate, hr, hp, hv, hd]

/-- The byte that an operation has as its operand (R84). -/
def takenByte : Instr → Option Byte
  | .reset => none
  | .idle => none
  | .noByte => none
  | .complete val => some val
  | .completeUngated => none
  | .h1Match val => some val
  | .h1Miss val => some val
  | .h2Match val => some val
  | .h2Miss val => some val
  | .fill val => some val

/-- In every cursor class the consumed byte is the operand (R85). -/
theorem takenByte_decodeConsumed (cfg : Cfg) (cls : ClassCode) (val : Byte) :
    takenByte (decodeConsumed cfg cls val) = some val := by
  unfold decodeConsumed
  split_ifs <;> rfl

/-- The operand of the selected operation is `in_data` (R84). -/
theorem eq_inData_of_takenByte {s : State} {val : Byte} (h : takenByte (fetch s) = some val) :
    val = (pinsNow s).inData := by
  rw [fetch_eq] at h
  split_ifs at h
  · cases h
  · cases h
  · cases h
  · cases h
  · exact (Option.some.inj h).symm
  · rw [takenByte_decodeConsumed] at h
    exact (Option.some.inj h).symm

/-- Settles O9: the row of the selected operation, and the byte that the decoder hands over to it. -/
theorem inTakeAsSpecified : Obligations.InTakeAsSpecified := by
  intro s t h
  refine ⟨(step_inTake h).trans (consumes_fetch s), step_inTake h, fun val hfetch => ?_⟩
  rcases hfetch with hf | hf | hf | hf | hf | hf <;> exact eq_inData_of_takenByte (by rw [hf]; rfl)

/-- An operation that answers moves CURSOR as the transition table says (T89). -/
theorem exec_cursor {i : Instr} {s t : State} (h : exec i s = .next t) : t.cursor = nextCursor i s.cursor := by
  rcases exec_cases i s with ⟨rfl, e⟩ | ⟨rfl | rfl, e⟩ | ⟨_, rfl, e⟩ | ⟨rfl, e⟩ | ⟨_, rfl, e⟩ | ⟨_, rfl, e⟩ |
    ⟨_, rfl | rfl, e⟩ | ⟨_, rfl, _, e⟩ | ⟨_, rfl, -, e⟩ <;> rw [e] at h <;> cases h <;> rfl

/-- No step changes the configuration, and each uses up its input levels and one edge (R7, R35). -/
theorem step_setting {s t : State} (h : step s = .next t) :
    t.cfg = s.cfg ∧ t.inputs = s.inputs.tail ∧ t.clock = s.clock + 1 := by
  obtain ⟨u, hu, rfl⟩ := step_eq_next.mp h
  obtain ⟨hcfg, hinputs, hclock⟩ := exec_keeps_setting hu
  exact ⟨hcfg, congrArg List.tail hinputs, congrArg (· + 1) hclock⟩

/-- A step moves CURSOR as the transition table says for the operation it performs (T89). -/
theorem step_cursor {s t : State} (h : step s = .next t) : t.cursor = nextCursor (fetch s) s.cursor := by
  obtain ⟨u, hu, rfl⟩ := step_eq_next.mp h
  rw [State.nextEdge_cursor, exec_cursor hu]

/-- Settles O11: the table for the operation performed; the classes are in the selection conditions. -/
theorem cursorFollowsTransitionTable : Obligations.CursorFollowsTransitionTable := by
  intro s t h
  have hle : t.cursor ≤ s.cfg.capacity := (step_setting h).1 ▸ t.cursor_le
  refine ⟨step_cursor h, hle, ?_, ?_, ?_, ?_⟩
  · rintro ⟨v, hf | hf⟩
    · obtain ⟨-, -, -, hcursor, -⟩ := (headerOneMatchOperation.1 s v).mp hf
      exact hcursor
    · obtain ⟨-, -, -, hcursor, -⟩ := (headerOneMissOperation.1 s v).mp hf
      exact hcursor
  · rintro ⟨v, hf | hf⟩
    · obtain ⟨-, -, -, hcursor, -⟩ := (headerTwoMatchOperation.1 s v).mp hf
      exact hcursor
    · obtain ⟨-, -, -, hcursor, -⟩ := (headerTwoMissOperation.1 s v).mp hf
      exact hcursor
  · rintro ⟨v, hf⟩
    obtain ⟨-, -, -, htwo, hlt, -⟩ := (fetch_eq_fill_iff s v).mp hf
    exact ⟨htwo, by omega⟩
  · rintro (⟨v, hf⟩ | hf)
    · obtain ⟨-, -, -, -, hcursor, -⟩ := (fetch_eq_complete_iff s v).mp hf
      exact hcursor
    · obtain ⟨-, -, -, hcursor⟩ := (fetch_eq_completeUngated_iff s).mp hf
      exact hcursor

/-- Only RESET and the publishing operations write RAW and SCALED (R53). -/
theorem exec_keepsChannels {i : Instr} {s t : State} (h : exec i s = .next t) (hreset : i ≠ .reset)
    (hpub : publishes i = false) : KeepsChannels s t := by
  rcases exec_cases i s with ⟨rfl, -⟩ | ⟨-, e⟩ | ⟨_, rfl, -⟩ | ⟨rfl, -⟩ | ⟨_, -, e⟩ | ⟨_, -, e⟩ | ⟨_, -, e⟩ |
    ⟨_, -, _, e⟩ | ⟨_, -, -, e⟩
  · exact absurd rfl hreset
  · rw [e] at h; cases h; exact (keepAll_frame s).2.1
  · cases hpub
  · cases hpub
  · rw [e] at h; cases h; exact ⟨rfl, rfl⟩
  · rw [e] at h; cases h; exact ⟨rfl, rfl⟩
  · rw [e] at h; cases h; exact ⟨rfl, rfl⟩
  · rw [e] at h; cases h; exact ⟨rfl, rfl⟩
  · rw [e] at h; cases h

/-- Settles O12: the operation performed is neither RESET nor one that publishes. -/
theorem channelsChangeOnlyOnCompletion : Obligations.ChannelsChangeOnlyOnCompletion := by
  intro s t h hdone hrst
  obtain ⟨u, hu, rfl⟩ := step_eq_next.mp h
  have hreset : fetch s ≠ .reset := by simp [fetch_eq_reset_iff, hrst]
  have hpub : publishes (fetch s) = false := (step_frameDone h).symm.trans hdone
  have hkeeps : KeepsChannels s u := exec_keepsChannels hu hreset hpub
  exact hkeeps

/-- Settles O13: by the operation performed; H1_MATCH and H2_MATCH write at the CURSOR that selects them. -/
theorem stepStoresOnlyAtCursor : Obligations.StepStoresOnlyAtCursor := by
  intro s t h
  refine ⟨fun a ha => ?_, (step_setting h).1⟩
  rcases step_cases h with ⟨-, -, rfl⟩ | ⟨-, -, -, rfl⟩ | ⟨-, -, -, -, -, rfl⟩ | ⟨-, -, -, -, -, rfl⟩ | ⟨-, -, -, hbyte⟩
  · rfl
  · rfl
  · rfl
  · rfl
  · rcases hbyte with ⟨-, -, -, rfl⟩ | ⟨hc, -, -, rfl⟩ | ⟨-, -, -, rfl⟩ | ⟨hc, -, -, rfl⟩ | ⟨-, -, -, rfl⟩ |
      ⟨-, -, -, rfl⟩
    · rfl
    · exact byteAt_appendByte_other s _ _ _ (hc ▸ ha)
    · rfl
    · exact byteAt_appendByte_other s _ _ _ (hc ▸ ha)
    · rfl
    · exact byteAt_appendByte_other s _ _ _ ha

/-! The step reads the input levels through the selected operation alone (R30, R65). -/

/-- The levels of the edge just taken are gone after it, whatever the operation. -/
theorem endOfEdge_exec_withInputs (i : Instr) (s : State) (p q : Pins) (ps : List Pins) :
    endOfEdge (exec i (s.withInputs (p :: ps))) = endOfEdge (exec i (s.withInputs (q :: ps))) := by
  cases i with
  | fill val =>
    by_cases h : s.cursor < s.cfg.capacity
    · rw [exec_fill (s := s.withInputs (p :: ps)) val h, exec_fill (s := s.withInputs (q :: ps)) val h]
      rfl
    · have hcap : s.cursor = s.cfg.capacity := le_antisymm s.cursor_le (Nat.not_lt.mp h)
      rw [fillOutsideBufferRefused (s.withInputs (p :: ps)) val hcap,
        fillOutsideBufferRefused (s.withInputs (q :: ps)) val hcap]
  | _ => rfl

/-- Input levels that select operations of the same meaning give the same step. -/
theorem step_withInputs_congr {s : State} {p q : Pins} {ps : List Pins}
    (h : exec (fetch (s.withInputs (p :: ps))) (s.withInputs (p :: ps)) =
      exec (fetch (s.withInputs (q :: ps))) (s.withInputs (p :: ps))) :
    step (s.withInputs (p :: ps)) = step (s.withInputs (q :: ps)) := by
  rw [step, step, h, endOfEdge_exec_withInputs]

/-- Settles O14: the tests of the priority order read no more than the levels that agree. -/
theorem unlookedInputsIgnored : Obligations.UnlookedInputsIgnored := by
  rintro s ⟨r, pl, v, d⟩ ⟨r', pl', v', d'⟩ ps ⟨hr, hpoll⟩
  refine step_withInputs_congr (congrArg (exec · _) ?_)
  simp only [fetch_eq, pinsNow_withInputs] at hr hpoll ⊢
  subst hr
  cases r with
  | true => rfl
  | false =>
    obtain ⟨hpl, hvalid⟩ := hpoll rfl
    subst hpl
    cases pl with
    | false => rfl
    | true =>
      obtain ⟨hv, hdata⟩ := hvalid rfl
      subst hv
      cases v with
      | false => rfl
      | true => rw [hdata rfl]

/-- Settles O15: both levels select RESET, IDLE, NOBYTE or COMPLETE alike, and COMPLETE's byte is not used. -/
theorem completionIgnoresTheByte : Obligations.CompletionIgnoresTheByte := by
  rintro s ⟨r, pl, v, d⟩ ⟨r', pl', v', d'⟩ ps hcap hr hp hv
  refine step_withInputs_congr ?_
  simp only [fetch_eq, pinsNow_withInputs, classOf_eq_complete] at hr hp hv ⊢
  subst hr hp
  cases hgate : s.cfg.completionGate with
  | ungated => simp [hgate, hcap]
  | byteGated =>
    obtain rfl := hv hgate
    simp only [hcap, State.withInputs_cfg, State.withInputs_cursor, hgate, reduceCtorEq, false_and, if_false, if_true]
    split_ifs <;> rfl

/-! ### The byte source (R87) -/

/-- `in_take` is 1 in polls with a byte only (R84). -/
theorem inTakeOf_eq_true {cfg : Cfg} {cursor : Nat} {p : Pins} (h : inTakeOf cfg cursor p = true) :
    p.poll = true ∧ p.inValid = true := by
  unfold inTakeOf at h
  split at h <;> simp_all

/-- A byte is shown to the hardware only where the head of the queue is offered (R87). -/
theorem sourcePins_inValid {c : EnvChoice} {queue : List Byte} (h : (sourcePins c queue).inValid = true) :
    c.offer = true ∧ ∃ b, queue = b :: queue.tail := by
  unfold sourcePins at h
  split at h
  · exact ⟨by assumption, _, rfl⟩
  · cases h

/-- The environment's choice of polls is what the hardware sees (R87). -/
theorem sourcePins_poll (c : EnvChoice) (queue : List Byte) : (sourcePins c queue).poll = c.poll := by
  unfold sourcePins
  split <;> rfl

/-- Settles O51: `in_take` needs a byte shown at a poll, and the source shows none but its head. -/
theorem byteSourceConserved : Obligations.ByteSourceConserved := by
  intro c y z h
  unfold systemStep at h
  cases hstep : step (y.core.withInputs [sourcePins c (y.queue ++ c.append)]) with
  | fault r => exact nomatch r
  | refused r => simp [hstep] at h
  | next s =>
    rw [hstep] at h
    cases h
    refine ⟨fun htake => ?_, fun htake => if_neg (ne_true_of_eq_false htake)⟩
    have hpins := inTakeOf_eq_true ((inTakeAsSpecified _ s hstep).1 ▸ htake)
    rw [pinsNow_withInputs, sourcePins_poll] at hpins
    obtain ⟨hpoll, hvalid⟩ := hpins
    obtain ⟨hoffer, b, hqueue⟩ := sourcePins_inValid hvalid
    refine ⟨b, hqueue.trans ?_, hoffer, hpoll⟩
    rw [queueAfter, if_pos htake]

end Sys2Proof.Machine

/-! ### The invariants of R34 -/

namespace Sys2Proof.Machine

/-- The end of an edge touches nothing that the invariants speak of. -/
theorem Inv.nextEdge {s : State} (h : Inv s) : Inv s.nextEdge := by
  obtain ⟨⟨hcursor, hraw, hscaled, hwf, hrange⟩, ⟨hfirst, hsecond, hwritten⟩, hchannels⟩ := h
  exact ⟨⟨hcursor, hraw, hscaled, hwf, hrange⟩, ⟨hfirst, hsecond, hwritten⟩, hchannels⟩

/-- Nor do the outputs. -/
theorem Inv.withOutputs {s : State} (h : Inv s) (inTake frameDone : Bool) : Inv (s.withOutputs inTake frameDone) := by
  obtain ⟨⟨hcursor, hraw, hscaled, hwf, hrange⟩, ⟨hfirst, hsecond, hwritten⟩, hchannels⟩ := h
  exact ⟨⟨hcursor, hraw, hscaled, hwf, hrange⟩, ⟨hfirst, hsecond, hwritten⟩, hchannels⟩

/-- At CURSOR 0 nothing is claimed of the header or of what is written (R34 (b), (c)). -/
theorem headerKept_of_cursor_zero {s : State} (h : s.cursor = 0) : HeaderKept s :=
  ⟨fun h1 => by omega, fun h2 => by omega, fun a ha => by omega⟩

/-- RESET needs nothing of the state but BUF's form (R34, R151). -/
theorem inv_restart {s : State} (hwf : s.buf.wf = true) (hrange : ∀ c ∈ s.buf, c.1 < s.cfg.capacity) :
    Inv (restart s) := by
  rw [restart_eq]
  exact ⟨⟨Nat.zero_le _, List.length_replicate, List.length_replicate, hwf, hrange⟩, headerKept_of_cursor_zero rfl,
    .inr ⟨rfl, rfl⟩⟩

/-- A completion publishes N fields with their rescaled values and leaves BUF as it is (R105). -/
theorem Inv.publish {s : State} (h : Inv s) (take : Bool) : Inv (publish take s) := by
  obtain ⟨hraw, hscaled, -⟩ := publish_channels take s
  exact ⟨⟨Nat.zero_le _, hraw, hscaled, h.shape.buf_wf, h.shape.buf_range⟩, headerKept_of_cursor_zero rfl, .inl rfl⟩

/-- A write at an address of BUF keeps the form of BUF, and an append no other part of the shape. -/
theorem Shape.appendByte {s : State} (h : Shape s) {a c : Nat} {v : Byte} (ha : a < s.cfg.capacity)
    (hc : c ≤ s.cfg.capacity) : Shape (appendByte a v c s hc) where
  cursor_le := hc
  raw_length := h.raw_length
  scaled_length := h.scaled_length
  buf_wf := Memory.wf_write a v h.buf_wf
  buf_range := by
    intro cell hcell
    rcases Memory.mem_write hcell with rfl | hold
    · exact ha
    · exact h.buf_range cell hold

/-- An append at CURSOR keeps the header, where a byte at a header position is its header byte (R90, R92). -/
theorem HeaderKept.appendByte {s : State} (h : HeaderKept s) {v : Byte} {c : Nat} (hc : c ≤ s.cfg.capacity)
    (hnext : c = s.cursor + 1) (hfirst : s.cursor = 0 → v = s.cfg.headerByte1)
    (hsecond : s.cursor = 1 → v = s.cfg.headerByte2) : HeaderKept (appendByte s.cursor v c s hc) := by
  have hread : ∀ a, (Machine.appendByte s.cursor v c s hc).buf.read a =
      if a = s.cursor then some v else s.buf.read a := by
    intro a
    split
    · next ha => rw [ha]; exact Memory.read_write_same ..
    · next ha => exact Memory.read_write_other _ _ ha
  subst hnext
  refine ⟨fun _ => ?_, fun htwo => ?_, fun a ha => ?_⟩
  · rw [hread]
    split
    · next h0 => exact congrArg some (hfirst h0.symm)
    · exact h.first (by omega)
  · have htwo : 2 ≤ s.cursor + 1 := htwo
    rw [hread]
    split
    · next h1 => exact congrArg some (hsecond h1.symm)
    · exact h.second (by omega)
  · have ha : a < s.cursor + 1 := ha
    rw [hread]
    split
    · rfl
    · exact h.written a (by omega)

/-- The append of H1_MATCH, H2_MATCH and FILL, each at the CURSOR that selects it, keeps the invariants. -/
theorem Inv.appendByte {s : State} (h : Inv s) {v : Byte} {a c : Nat} (hc : c ≤ s.cfg.capacity) (ha : a = s.cursor)
    (hnext : c = s.cursor + 1) (hfirst : s.cursor = 0 → v = s.cfg.headerByte1)
    (hsecond : s.cursor = 1 → v = s.cfg.headerByte2) : Inv (appendByte a v c s hc) := by
  subst ha
  exact ⟨h.shape.appendByte (by omega) hc, h.header.appendByte hc hnext hfirst hsecond, h.channels⟩

/-- Settles O39: by the operation performed; only the appends touch BUF, and each at CURSOR. -/
theorem everyStepKeepsInvariants : Obligations.EveryStepKeepsInvariants := by
  intro s t h hstep
  rcases step_cases hstep with ⟨-, -, rfl⟩ | ⟨-, -, -, rfl⟩ | ⟨-, -, -, -, -, rfl⟩ | ⟨-, -, -, -, -, rfl⟩ |
    ⟨-, -, -, hbyte⟩
  · exact (inv_restart h.shape.buf_wf h.shape.buf_range).nextEdge
  · exact (h.withOutputs false false).nextEdge
  · exact (h.publish false).nextEdge
  · exact (h.withOutputs false false).nextEdge
  · rcases hbyte with ⟨-, -, -, rfl⟩ | ⟨hc, hb, -, rfl⟩ | ⟨-, -, -, rfl⟩ | ⟨hc, hb, -, rfl⟩ | ⟨-, -, -, rfl⟩ |
      ⟨hc, -, -, rfl⟩
    · exact (h.publish true).nextEdge
    · exact (h.appendByte _ hc.symm (by omega) (fun _ => hb) (by omega)).nextEdge
    · exact (h.withOutputs true false).nextEdge
    · exact (h.appendByte _ hc.symm (by omega) (by omega) (fun _ => hb)).nextEdge
    · exact (h.withOutputs true false).nextEdge
    · exact (h.appendByte _ rfl rfl (by omega) (by omega)).nextEdge

/-- Settles O38: the step is RESET's, whose invariants need BUF's form alone. -/
theorem resetEstablishesInvariants : Obligations.ResetEstablishesInvariants := by
  intro s t hwf hrange hrst hstep
  obtain ⟨u, hu, rfl⟩ := step_eq_next.mp hstep
  rw [(fetch_eq_reset_iff s).mpr hrst] at hu
  cases hu
  exact (inv_restart hwf hrange).nextEdge

/-- Settles O36: the values as they stand, and `restart` on them. -/
theorem resetStateValues : Obligations.ResetStateValues :=
  ⟨rfl, rfl, rfl, ⟨rfl, rfl⟩, rfl, fun _ => byteAt_of_unwritten _ rfl, rfl⟩

/-- Settles O37: the state after reset is what RESET makes of itself. -/
theorem invariantsHoldAtReset : Obligations.InvariantsHoldAtReset :=
  inv_restart (s := State.reset) rfl nofun

end Sys2Proof.Machine

/-! ### What BUF holds at or above CURSOR is not visible (R23) -/

namespace Sys2Proof.Machine

/-- Two states agree in what later outputs can depend on: all but BUF at and above CURSOR, the outputs of the step
before, and the model's own `inputs` and `clock` (R23; log entries 1 and 14). -/
structure SameVisible (s t : State) : Prop where
  cfg : s.cfg = t.cfg
  cursor : s.cursor = t.cursor
  raw : s.raw = t.raw
  scaled : s.scaled = t.scaled
  bytes : ∀ a, a < s.cursor → byteAt s a = byteAt t a

/-- The relation of R23 is the visible part with the input levels and the edge count. -/
theorem sameBelowCursor_iff (s t : State) :
    SameBelowCursor s t ↔ SameVisible s t ∧ s.inputs = t.inputs ∧ s.clock = t.clock :=
  ⟨fun ⟨hcfg, hcursor, hraw, hscaled, hinputs, hclock, hbytes⟩ =>
    ⟨⟨hcfg, hcursor, hraw, hscaled, hbytes⟩, hinputs, hclock⟩,
  fun ⟨⟨hcfg, hcursor, hraw, hscaled, hbytes⟩, hinputs, hclock⟩ =>
    ⟨hcfg, hcursor, hraw, hscaled, hinputs, hclock, hbytes⟩⟩

/-- The input levels are read from the inputs set and the edge count alone. -/
theorem pinsNow_congr {s t : State} (hinputs : s.inputs = t.inputs) (hclock : s.clock = t.clock) :
    pinsNow s = pinsNow t := by
  rw [pinsNow, pinsNow, hinputs, hclock]

/-- The operation is selected by the configuration, CURSOR and the input levels alone (R65). -/
theorem SameVisible.fetch_eq {s t : State} (h : SameVisible s t) (hpins : pinsNow s = pinsNow t) :
    fetch s = fetch t := by
  rw [fetch, fetch, dispatchWord, dispatchWord, h.cfg, h.cursor, hpins]

namespace SameVisible

variable {s t : State}

theorem nextEdge (h : SameVisible s t) : SameVisible s.nextEdge t.nextEdge :=
  ⟨h.cfg, h.cursor, h.raw, h.scaled, h.bytes⟩

theorem withOutputs (h : SameVisible s t) (x y : Bool) : SameVisible (s.withOutputs x y) (t.withOutputs x y) :=
  ⟨h.cfg, h.cursor, h.raw, h.scaled, h.bytes⟩

theorem withInputs (h : SameVisible s t) (ps : List Pins) : SameVisible (s.withInputs ps) (t.withInputs ps) :=
  ⟨h.cfg, h.cursor, h.raw, h.scaled, h.bytes⟩

/-- After RESET only the configuration of the state before is visible (R150, R153). -/
theorem restart (hcfg : s.cfg = t.cfg) : SameVisible (restart s) (restart t) := by
  rw [restart_eq, restart_eq]
  exact ⟨hcfg, rfl, by simp [hcfg], by simp [hcfg], fun a ha => absurd ha (Nat.not_lt_zero a)⟩

/-- At FRAME_COMPLETE all of BUF is below CURSOR, and equal fields are published. -/
theorem publish (h : SameVisible s t) (hcap : s.cursor = s.cfg.capacity) (take : Bool) :
    SameVisible (publish take s) (publish take t) := by
  have hfields : extractAll s = extractAll t := extractAll_congr h.cfg fun a ha => h.bytes a (hcap ▸ ha)
  rw [publish_eq, publish_eq]
  exact ⟨h.cfg, rfl, hfields, by simp [hfields, h.cfg], fun a ha => absurd ha (Nat.not_lt_zero a)⟩

/-- An append extends what is written by one equal byte. -/
theorem appendByte (h : SameVisible s t) {a c : Nat} {v : Byte} (ha : a = s.cursor) (hnext : c = s.cursor + 1)
    (hs : c ≤ s.cfg.capacity) (ht : c ≤ t.cfg.capacity) :
    SameVisible (appendByte a v c s hs) (appendByte a v c t ht) := by
  refine ⟨h.cfg, rfl, h.raw, h.scaled, fun b hb => ?_⟩
  have hb : b < c := hb
  by_cases hba : b = a
  · rw [hba, byteAt_appendByte_same, byteAt_appendByte_same]
  · rw [byteAt_appendByte_other _ _ _ _ hba, byteAt_appendByte_other _ _ _ _ hba]
    exact h.bytes b (by omega)

end SameVisible

/-- FILL at a CURSOR of known value. -/
theorem exec_fill_of_cursor_eq {s : State} {c : Nat} (val : Byte) (hc : c = s.cursor) (h : c + 1 ≤ s.cfg.capacity) :
    exec (.fill val) s = .next (appendByte c val (c + 1) s h) := by
  subst hc
  exact exec_fill val h

/-- The same operation, selected by the same input levels, leads states that agree in what is visible to such states,
with equal outputs: the commuting diagram of one step. -/
theorem SameVisible.step {s t s' : State} (h : SameVisible s t) (hpins : pinsNow s = pinsNow t)
    (hstep : step s = .next s') : ∃ t', step t = .next t' ∧ SameVisible s' t' ∧ outputsOf t' = outputsOf s' := by
  have hfetch := h.fetch_eq hpins
  suffices hsim : ∃ u, exec (fetch t) t = .next u ∧ SameVisible s' u.nextEdge ∧ outputsOf u.nextEdge = outputsOf s' by
    obtain ⟨u, hu, hsame, hout⟩ := hsim
    exact ⟨u.nextEdge, step_eq_next.mpr ⟨u, hu, rfl⟩, hsame, hout⟩
  rw [← hfetch]
  rcases step_cases hstep with ⟨-, e, rfl⟩ | ⟨-, -, e, rfl⟩ | ⟨-, -, -, hcap, e, rfl⟩ | ⟨-, -, -, -, e, rfl⟩ |
    ⟨-, -, -, hbyte⟩
  · exact e ▸ ⟨_, rfl, (SameVisible.restart h.cfg).nextEdge, rfl⟩
  · exact e ▸ ⟨_, rfl, (h.withOutputs false false).nextEdge, rfl⟩
  · exact e ▸ ⟨_, rfl, (h.publish hcap false).nextEdge, rfl⟩
  · exact e ▸ ⟨_, rfl, (h.withOutputs false false).nextEdge, rfl⟩
  · rcases hbyte with ⟨-, hcap, e, rfl⟩ | ⟨hc, -, e, rfl⟩ | ⟨-, -, e, rfl⟩ | ⟨hc, -, e, rfl⟩ | ⟨-, -, e, rfl⟩ |
      ⟨-, hlt, e, rfl⟩
    · exact e ▸ ⟨_, rfl, (h.publish hcap true).nextEdge, rfl⟩
    · exact e ▸ ⟨_, rfl, (h.appendByte hc.symm (by omega) _ _).nextEdge, rfl⟩
    · exact e ▸ ⟨_, rfl, (h.withOutputs true false).nextEdge, rfl⟩
    · exact e ▸ ⟨_, rfl, (h.appendByte hc.symm (by omega) _ _).nextEdge, rfl⟩
    · exact e ▸ ⟨_, rfl, (h.withOutputs true false).nextEdge, rfl⟩
    · have hlt' : s.cursor + 1 ≤ t.cfg.capacity := h.cfg ▸ hlt
      exact e ▸ ⟨_, exec_fill_of_cursor_eq _ h.cursor hlt', (h.appendByte rfl rfl hlt hlt').nextEdge, rfl⟩

/-- Settles O40: the diagram of one step, and equal input levels before it leave equal ones after it. -/
theorem unwrittenBufferUnobservable : Obligations.UnwrittenBufferUnobservable := by
  intro s t s' h hstep
  obtain ⟨hvisible, hinputs, hclock⟩ := (sameBelowCursor_iff s t).mp h
  obtain ⟨t', hstep', hsame, hout⟩ := hvisible.step (pinsNow_congr hinputs hclock) hstep
  obtain ⟨-, hinputs', hclock'⟩ := step_setting hstep
  obtain ⟨-, hinputs'', hclock''⟩ := step_setting hstep'
  refine ⟨t', hstep', (sameBelowCursor_iff s' t').mpr ⟨hsame, ?_, ?_⟩, congrArg Outputs.inTake hout,
    congrArg Outputs.frameDone hout⟩
  · rw [hinputs', hinputs'', hinputs]
  · rw [hclock', hclock'', hclock]

end Sys2Proof.Machine

/-! ### The rescaler (R115 to R124) -/

namespace Sys2Proof.Machine

/-- The division of R117 is the library's, which rounds toward zero (D10; log entry 11). -/
theorem tdiv_eq_tdiv (a b : Int) : tdiv a b = Int.tdiv a b := by
  rw [← Int.sign_mul_natAbs (Int.tdiv a b), Int.sign_tdiv, Int.natAbs_tdiv, tdiv]
  split
  · next hlt => simp [Nat.div_eq_of_lt hlt]
  · rfl

/-- The sign of a nonzero remainder is the dividend's (R117). -/
theorem sign_tmod_or_eq_zero (a b : Int) : Int.tmod a b = 0 ∨ (Int.tmod a b).sign = a.sign := by
  by_cases hdvd : b ∣ a
  · exact .inl (Int.tmod_eq_zero_of_dvd hdvd)
  · exact .inr ((Int.sign_tmod a b).trans (if_neg hdvd))

/-- Settles O27: the library's facts on its three divisions and their remainders. -/
theorem tdivRoundsTowardZero : Obligations.TdivRoundsTowardZero := by
  intro a b hb
  rw [← Int.natCast_natAbs a, ← Int.natCast_natAbs b, Int.fdiv_eq_ediv_of_nonneg _ (Int.natCast_nonneg _),
    ← Int.natCast_ediv]
  refine ⟨tdiv_eq_tdiv a b, rfl, ?_⟩
  rw [tdiv_eq_tdiv, ← Int.tmod_def, Int.natAbs_tmod]
  refine ⟨sign_tmod_or_eq_zero a b, Nat.mod_lt _ (Int.natAbs_pos.mpr hb), fun ha hbpos => ?_, fun ha hbpos => ⟨?_, ?_⟩⟩
  · exact (Int.fdiv_eq_tdiv_of_nonneg ha hbpos.le).symm
  · rw [Int.fdiv_eq_tdiv_of_nonneg (by omega) hbpos.le, Int.neg_tdiv, neg_neg]
  · intro hdvd
    rw [Int.tdiv_eq_fdiv, if_neg hdvd, if_neg (not_le.mpr ha), if_pos hbpos.le, Int.sign_eq_one_of_pos hbpos]

/-- Settles O28: the map of R116 with the division of R117, and the source's six values. -/
theorem rescaleIsTheIntegerMap : Obligations.RescaleIsTheIntegerMap :=
  ⟨fun _ _ => congrArg _ (tdiv_eq_tdiv _ _), by decide⟩

/-- RESCALE with the source's literals, as floor division on each side of FROM_LOW (R116, R117). -/
theorem rescale_default (raw : Field) :
    (1000 ≤ raw.toNat → rescale Cfg.default raw = ((raw.toNat : Int) - 1000) * 255 / 1000) ∧
    (raw.toNat ≤ 1000 → rescale Cfg.default raw = -((1000 - (raw.toNat : Int)) * 255 / 1000)) := by
  have hmap : rescale Cfg.default raw = 0 + Int.tdiv (((raw.toNat : Int) - 1000) * 255) 1000 :=
    rescaleIsTheIntegerMap.1 Cfg.default raw
  rw [hmap, zero_add]
  refine ⟨fun h => Int.tdiv_eq_ediv_of_nonneg (by omega), fun h => ?_⟩
  rw [← neg_sub, Int.neg_mul, Int.neg_tdiv, Int.tdiv_eq_ediv_of_nonneg (by omega)]

/-- Settles O29: linear arithmetic on RESCALE's floor divisions on each side of FROM_LOW. -/
theorem rescaleWithinByteRange : Obligations.RescaleWithinByteRange := by
  refine ⟨by decide, by decide, fun raw => ?_⟩
  have hmap := rescale_default raw
  omega

/-- Settles O30: the same arithmetic, with the field at most 65535. -/
theorem rescaleResultRange : Obligations.RescaleResultRange := by
  refine ⟨by decide, by decide, fun raw => ?_⟩
  have hmap := rescale_default raw
  have hmax := raw.isLt
  omega

/-- With the source's literals RESCALE does not decrease (R121). -/
theorem rescale_default_mono {x y : Field} (h : x.toNat ≤ y.toNat) :
    rescale Cfg.default x ≤ rescale Cfg.default y := by
  have hx := rescale_default x
  have hy := rescale_default y
  omega

/-- The fields of a positive result: from one least preimage to the next (R121). -/
theorem rescale_default_eq_iff_of_pos {v : Int} (hv : 0 < v) (raw : Field) :
    rescale Cfg.default raw = v ↔
      1000 + (1000 * v + 254) / 255 ≤ raw.toNat ∧ raw.toNat < 1000 + (1000 * (v + 1) + 254) / 255 := by
  have hmap := rescale_default raw
  omega

/-- The fields of a negative result, mirrored at FROM_LOW (R121). -/
theorem rescale_default_eq_iff_of_neg {v : Int} (hv : v < 0) (raw : Field) :
    rescale Cfg.default raw = v ↔
      1000 - (1000 * (1 - v) + 254) / 255 < raw.toNat ∧ raw.toNat ≤ 1000 - (1000 * -v + 254) / 255 := by
  have hmap := rescale_default raw
  omega

/-- Between the end points each result but 0 is taken by 3 or 4 fields in a row: a step of RESCALE is 1000/255 wide. -/
theorem rescale_default_plateau {v : Int} (hlow : -255 < v) (hhigh : v < 16456) (hv : v ≠ 0) :
    ∃ first count : Nat, (count = 3 ∨ count = 4) ∧ first + count ≤ 65536 ∧
      ∀ raw : Field, rescale Cfg.default raw = v ↔ (first ≤ raw.toNat ∧ raw.toNat < first + count) := by
  rcases lt_or_gt_of_ne hv with hneg | hpos
  · refine ⟨(1000 - (1000 * (1 - v) + 254) / 255 + 1).toNat,
      ((1000 * (1 - v) + 254) / 255 - (1000 * -v + 254) / 255).toNat, by omega, by omega, fun raw => ?_⟩
    rw [rescale_default_eq_iff_of_neg hneg]
    omega
  · refine ⟨(1000 + (1000 * v + 254) / 255).toNat,
      ((1000 * (v + 1) + 254) / 255 - (1000 * v + 254) / 255).toNat, by omega, by omega, fun raw => ?_⟩
    rw [rescale_default_eq_iff_of_pos hpos]
    omega

/-- Settles O31: monotone, with the plateaus between the end points and the three others computed. -/
theorem rescaleMonotoneWithPlateaus : Obligations.RescaleMonotoneWithPlateaus := by
  refine ⟨fun x y => rescale_default_mono, fun v => rescale_default_plateau, fun raw => ?_, fun raw => ?_,
    fun raw => ?_, by decide, by decide⟩
  · have hmap := rescale_default raw
    omega
  · rw [rescale_default_eq_iff_of_neg (by decide), ← BitVec.toNat_inj, show (0 : Field).toNat = 0 from rfl]
    omega
  · rw [rescale_default_eq_iff_of_pos (by decide), ← BitVec.toNat_inj, ← BitVec.toNat_inj,
      show (65534 : Field).toNat = 65534 from rfl, show (65535 : Field).toNat = 65535 from rfl]
    have := raw.isLt
    omega

end Sys2Proof.Machine

/-! ### The widths, the ports and the configuration (R8 to R10, R31, R119, R122) -/

namespace Sys2Proof.Machine

/-- A number has at most k binary digits exactly below 2^k. -/
theorem bitLength_le_iff (m k : Nat) : bitLength m ≤ k ↔ m < 2 ^ k := by
  unfold bitLength
  split
  · next hzero => simp [hzero]
  · next hpos => rw [Nat.succ_le_iff, Nat.log2_lt hpos]

/-- The width of R119 is the least that holds the integer in two's complement. -/
theorem signedWidth_le_succ_iff (v : Int) (k : Nat) : signedWidth v ≤ k + 1 ↔ -2 ^ k ≤ v ∧ v < 2 ^ k := by
  have hpow : ((2 ^ k : Nat) : Int) = 2 ^ k := by push_cast; rfl
  rw [signedWidth, Nat.add_le_add_iff_right, bitLength_le_iff, ← hpow]
  split <;> omega

/-- RESCALE moves in one direction over all raw values (R116). -/
theorem rescaleInt_monotone_or_antitone (cfg : Cfg) : Monotone (rescaleInt cfg) ∨ Antitone (rescaleInt cfg) := by
  have hdiv : Monotone (fun a => tdiv a (cfg.fromHigh - cfg.fromLow)) ∨
      Antitone (fun a => tdiv a (cfg.fromHigh - cfg.fromLow)) := by
    simp only [tdiv_eq_tdiv]
    rcases lt_or_gt_of_ne (sub_ne_zero.mpr cfg.span) with hneg | hpos
    · refine .inr fun a b hab => ?_
      have := Int.tdiv_le_tdiv (neg_pos.mpr hneg) hab
      rwa [Int.tdiv_neg, Int.tdiv_neg, neg_le_neg_iff] at this
    · exact .inl fun a b hab => Int.tdiv_le_tdiv hpos hab
  have hmul : Monotone (fun raw => (raw - cfg.fromLow) * (cfg.toHigh - cfg.toLow)) ∨
      Antitone (fun raw => (raw - cfg.fromLow) * (cfg.toHigh - cfg.toLow)) := by
    rcases le_total 0 (cfg.toHigh - cfg.toLow) with hpos | hneg
    · exact .inl fun x y hxy => mul_le_mul_of_nonneg_right (sub_le_sub_right hxy _) hpos
    · exact .inr fun x y hxy => mul_le_mul_of_nonpos_right (sub_le_sub_right hxy _) hneg
  rcases hdiv with hdiv | hdiv <;> rcases hmul with hmul | hmul
  · exact .inl ((hdiv.comp hmul).const_add cfg.toLow)
  · exact .inr ((hdiv.comp_antitone hmul).const_add cfg.toLow)
  · exact .inr ((hdiv.comp_monotone hmul).const_add cfg.toLow)
  · exact .inl ((hdiv.comp hmul).const_add cfg.toLow)

/-- Every result of RESCALE lies between those of the ends of the 16-bit domain (R119, R120). -/
theorem rescale_mem_uIcc (cfg : Cfg) (raw : Field) :
    rescale cfg raw ∈ Set.uIcc (rescaleInt cfg 0) (rescaleInt cfg 65535) := by
  have hraw : (raw.toNat : Int) ∈ Set.uIcc 0 65535 := by
    have := raw.isLt
    rw [Set.mem_uIcc]
    omega
  rcases rescaleInt_monotone_or_antitone cfg with hmono | hanti
  · exact hmono.image_uIcc_subset ⟨_, hraw, rfl⟩
  · exact hanti.image_uIcc_subset ⟨_, hraw, rfl⟩

/-- In the width that holds both ends of the domain no result wraps (R119, R122). -/
theorem toInt_ofInt_rescale (cfg : Cfg) (raw : Field) :
    (BitVec.ofInt (scaledWidth cfg) (rescale cfg raw)).toInt = rescale cfg raw := by
  obtain ⟨k, hk⟩ : ∃ k, scaledWidth cfg = k + 1 := by
    refine Nat.exists_eq_succ_of_ne_zero (Nat.ne_of_gt ?_)
    exact lt_max_of_lt_left (Nat.succ_pos _)
  obtain ⟨hlow, hlow'⟩ := (signedWidth_le_succ_iff (rescaleInt cfg 0) k).mp (hk ▸ le_max_left _ _)
  obtain ⟨hhigh, hhigh'⟩ := (signedWidth_le_succ_iff (rescaleInt cfg 65535) k).mp (hk ▸ le_max_right _ _)
  rw [hk]
  rcases Set.mem_uIcc.mp (rescale_mem_uIcc cfg raw) with ⟨h0, h1⟩ | ⟨h0, h1⟩
  · exact BitVec.toInt_ofInt_eq_self (Nat.succ_pos k) (hlow.trans h0) (h1.trans_lt hhigh')
  · exact BitVec.toInt_ofInt_eq_self (Nat.succ_pos k) (hhigh.trans h0) (h1.trans_lt hlow')

/-- Settles O32: the width holds every result, and is 16 for the source's literals. -/
theorem storedPatternIsExact : Obligations.StoredPatternIsExact :=
  ⟨toInt_ofInt_rescale, by decide, by decide⟩

/-- Settles O33: the step is `publish`, whose channels the ports show without wrapping. -/
theorem portsShowPublishedFrame : Obligations.PortsShowPublishedFrame := by
  intro s t h hdone i hi
  rw [step_eq_publish_of_frameDone h hdone]
  obtain ⟨-, -, hchannel⟩ := publish_channels (consumes (fetch s)) s
  obtain ⟨hraw, hscaled⟩ := hchannel i hi
  exact ⟨extract16 s i, _, hraw, congrArg (Option.map _) hscaled, rfl, toInt_ofInt_rescale s.cfg _⟩

/-- Settles O34: CW is the number of binary digits of CAPACITY, and CURSOR is at most CAPACITY. -/
theorem cursorFitsItsRegister : Obligations.CursorFitsItsRegister := by
  have hwidth : ∀ (cfg : Cfg) (w : Nat), cursorWidth cfg ≤ w ↔ cfg.capacity < 2 ^ w := fun cfg w => by
    rw [cursorWidth, Nat.succ_le_iff, Nat.log2_lt (Nat.ne_of_gt (one_le_capacity cfg))]
  refine ⟨fun cfg => ⟨(hwidth cfg _).mp le_rfl, fun w => (hwidth cfg w).mpr⟩, fun s => ?_⟩
  exact Nat.mod_eq_of_lt (s.cursor_le.trans_lt ((hwidth s.cfg _).mp le_rfl))

/-- Settles O35: by the two checks of `Cfg.build`, in their order. -/
theorem configurationCheckedWhenBuilt : Obligations.ConfigurationCheckedWhenBuilt := by
  intro f
  by_cases hroom : 2 + 2 * f.n ≤ f.capacity
  · by_cases hspan : f.fromHigh ≠ f.fromLow
    · have hbuild : Cfg.build f = .ok { f with room := hroom, span := hspan } := by
        rw [Cfg.build, dif_pos hroom, dif_pos hspan]
      refine ⟨fun c hc => ?_, ⟨fun _ => ⟨hroom, hspan⟩, fun _ => ⟨_, hbuild⟩⟩, by omega, fun _ heq => absurd heq hspan⟩
      rw [hbuild] at hc
      cases hc
      rfl
    · have hbuild : Cfg.build f = .error .zeroSpan := by rw [Cfg.build, dif_pos hroom, dif_neg hspan]
      simp [hbuild, hroom, not_not.mp hspan]
  · have hbuild : Cfg.build f = .error .capacityTooSmall := by rw [Cfg.build, dif_neg hroom]
    simp [hbuild, hroom]

end Sys2Proof.Machine

/-! ### Runs: totality, and what of the power-up state is visible (R86, R150, R154, R168) -/

namespace Sys2Proof.Machine

/-- A run with its first step in front. -/
theorem runTrace_cons_next {tok : Token} {ts : List Token} {s u t : State} {os : List Outputs}
    (hstep : stepToken tok s = .next u) (hrun : runTrace ts u = .next (t, os)) :
    runTrace (tok :: ts) s = .next (t, outputsOf u :: os) := by
  rw [runTrace_cons hstep, hrun, consOutputs]

/-- A run of one step. -/
theorem runTrace_singleton {tok : Token} {s u : State} (hstep : stepToken tok s = .next u) :
    runTrace [tok] s = .next (u, [outputsOf u]) :=
  runTrace_cons_next hstep rfl

/-- A run that answers, taken apart at its first step. -/
theorem runTrace_cons_inv {tok : Token} {ts : List Token} {s t : State} {os : List Outputs}
    (hrun : runTrace (tok :: ts) s = .next (t, os)) :
    ∃ u us, stepToken tok s = .next u ∧ runTrace ts u = .next (t, us) ∧ os = outputsOf u :: us := by
  obtain ⟨u, hu⟩ := stepNeverStops (s.withInputs [tokenPins tok])
  have hstep : stepToken tok s = .next u := hu
  rw [runTrace_cons hstep] at hrun
  cases hr : runTrace ts u with
  | fault r => exact nomatch r
  | refused r => simp [hr, consOutputs] at hrun
  | next q =>
    obtain ⟨v, us⟩ := q
    rw [hr] at hrun
    cases hrun
    exact ⟨u, us, hstep, hr, rfl⟩

/-- Every trace runs to its end, with one pair of outputs for each step (R86, R168). -/
theorem runTrace_total (ts : List Token) (s : State) :
    ∃ t os, runTrace ts s = .next (t, os) ∧ os.length = ts.length := by
  induction ts generalizing s with
  | nil => exact ⟨s, [], rfl, rfl⟩
  | cons tok ts ih =>
    obtain ⟨u, hstep⟩ := stepNeverStops (s.withInputs [tokenPins tok])
    obtain ⟨t, os, hrun, hlen⟩ := ih u
    exact ⟨t, _, runTrace_cons_next hstep hrun, congrArg (· + 1) hlen⟩

/-- The commuting diagram of one step, along a trace. -/
theorem SameVisible.runTrace {ts : List Token} {s s' t : State} {os : List Outputs} (h : SameVisible s s')
    (hrun : runTrace ts s = .next (t, os)) : ∃ t', runTrace ts s' = .next (t', os) ∧ SameVisible t t' := by
  induction ts generalizing s s' os with
  | nil =>
    cases hrun
    exact ⟨s', rfl, h⟩
  | cons tok ts ih =>
    obtain ⟨u, us, hstep, hrest, rfl⟩ := runTrace_cons_inv hrun
    obtain ⟨u', hstep', hsame, hout⟩ := (h.withInputs [tokenPins tok]).step rfl hstep
    obtain ⟨t', hrun', hend⟩ := ih hsame hrest
    exact ⟨t', hout ▸ runTrace_cons_next hstep' hrun', hend⟩

/-- Settles O41: RESET leads both states to ones that agree in what is visible, and so does the rest of the trace. -/
theorem powerUpStateUnobservable : Obligations.PowerUpStateUnobservable := by
  intro s s' t ts os hcfg hrun
  obtain ⟨u, us, hstep, hrest, rfl⟩ := runTrace_cons_inv hrun
  rw [stepToken_r] at hstep
  cases hstep
  have hsame : SameVisible (afterToken restart .r s) (afterToken restart .r s') :=
    (SameVisible.restart (s := s.withInputs [tokenPins .r]) (t := s'.withInputs [tokenPins .r]) hcfg).nextEdge
  obtain ⟨t', hrun', hend⟩ := hsame.runTrace hrest
  have hreset : stepToken .r s' = .next (afterToken restart .r s') := stepToken_r
  have hall := runTrace_cons_next hreset hrun'
  exact ⟨t', hall, hend.cursor.symm, hend.raw.symm, hend.scaled.symm⟩

/-- The idle steps before the first RESET have the outputs 0, and RESET forgets the state (R150, R154). -/
theorem outputs_eq_of_startUpOk {ts : List Token} {s s' t t' : State} {os os' : List Outputs} (hcfg : s.cfg = s'.cfg)
    (hstart : startUpOk ts = true) (hrun : runTrace ts s = .next (t, os)) (hrun' : runTrace ts s' = .next (t', os')) :
    os' = os := by
  induction ts generalizing s s' os os' with
  | nil =>
    cases hrun
    cases hrun'
    rfl
  | cons tok ts ih =>
    cases tok with
    | r =>
      obtain ⟨_, hsame, -⟩ := powerUpStateUnobservable s s' t ts os hcfg hrun
      rw [hrun'] at hsame
      cases hsame
      rfl
    | i =>
      obtain ⟨u, us, hstep, hrest, rfl⟩ := runTrace_cons_inv hrun
      obtain ⟨u', us', hstep', hrest', rfl⟩ := runTrace_cons_inv hrun'
      rw [stepToken_i] at hstep hstep'
      cases hstep
      cases hstep'
      rw [ih (s := afterToken keepAll .i s) (s' := afterToken keepAll .i s') hcfg hstart hrest hrest']
      rfl
    | pNone => cases hstart
    | p b => cases hstart

/-- Settles O42: every step answers; and up to the first RESET nothing is put out. -/
theorem startedTraceNeverStops : Obligations.StartedTraceNeverStops :=
  ⟨fun s ts => runTrace_total ts s, fun _ _ _ _ _ _ _ hcfg hstart => outputs_eq_of_startUpOk hcfg hstart⟩

/-! ### Runs that leave the state as it is -/

/-- The configuration and every element of the spec's state are as before (R20). -/
structure Unmoved (s t : State) : Prop where
  cfg : t.cfg = s.cfg
  cursor : t.cursor = s.cursor
  buf : KeepsBuf s t
  channels : KeepsChannels s t

theorem Unmoved.refl (s : State) : Unmoved s s := ⟨rfl, rfl, fun _ => rfl, ⟨rfl, rfl⟩⟩

theorem KeepsChannels.trans {s t u : State} (h : KeepsChannels s t) (h' : KeepsChannels t u) : KeepsChannels s u :=
  ⟨h'.1.trans h.1, h'.2.trans h.2⟩

theorem Unmoved.trans {s t u : State} (h : Unmoved s t) (h' : Unmoved t u) : Unmoved s u :=
  ⟨h'.cfg.trans h.cfg, h'.cursor.trans h.cursor, fun a => (h'.buf a).trans (h.buf a), h.channels.trans h'.channels⟩

/-- The step of a token leaves the state as it is and puts these outputs out. -/
def Stays (tok : Token) (s : State) (o : Outputs) : Prop :=
  ∃ t, stepToken tok s = .next t ∧ Unmoved s t ∧ outputsOf t = o

theorem stays_i (s : State) : Stays .i s ⟨false, false⟩ :=
  ⟨_, stepToken_i, ⟨rfl, rfl, fun _ => rfl, ⟨rfl, rfl⟩⟩, rfl⟩

theorem stays_pNone {s : State} (h : s.cfg.completionGate = .ungated → s.cursor ≠ s.cfg.capacity) :
    Stays .pNone s ⟨false, false⟩ :=
  ⟨_, stepToken_pNone h, ⟨rfl, rfl, fun _ => rfl, ⟨rfl, rfl⟩⟩, rfl⟩

theorem stays_h1Miss {s : State} {b : Byte} (h : s.cursor = 0) (hb : b ≠ s.cfg.headerByte1) :
    Stays (.p b) s ⟨true, false⟩ :=
  ⟨_, stepToken_h1Miss h hb, ⟨rfl, rfl, fun _ => rfl, ⟨rfl, rfl⟩⟩, rfl⟩

theorem stays_h2Miss {s : State} {b : Byte} (h : s.cursor = 1) (hb : b ≠ s.cfg.headerByte2) :
    Stays (.p b) s ⟨true, false⟩ :=
  ⟨_, stepToken_h2Miss h hb, ⟨rfl, rfl, fun _ => rfl, ⟨rfl, rfl⟩⟩, rfl⟩

/-- Below CAPACITY a poll without a byte is never a completion. -/
theorem stays_pNone_of_lt {s : State} (h : s.cursor < s.cfg.capacity) : Stays .pNone s ⟨false, false⟩ :=
  stays_pNone fun _ => h.ne

/-- A trace of steps each of which leaves the state as it is, from every such state. -/
theorem runTrace_unmoved {P : Outputs → Prop} {ts : List Token} {s : State}
    (h : ∀ tok ∈ ts, ∀ u, Unmoved s u → ∃ o, Stays tok u o ∧ P o) :
    ∃ t os, runTrace ts s = .next (t, os) ∧ Unmoved s t ∧ ∀ o ∈ os, P o := by
  suffices hrun : ∀ u, Unmoved s u → ∃ t os, runTrace ts u = .next (t, os) ∧ Unmoved s t ∧ ∀ o ∈ os, P o from
    hrun s (Unmoved.refl s)
  induction ts with
  | nil => exact fun u hu => ⟨u, [], rfl, hu, by simp⟩
  | cons tok ts ih =>
    intro u hu
    obtain ⟨o, ⟨v, hstep, huv, rfl⟩, hP⟩ := h tok (List.mem_cons_self ..) u hu
    obtain ⟨t, os, hrun, ht, hos⟩ := ih (fun x hx => h x (List.mem_cons_of_mem _ hx)) v (hu.trans huv)
    exact ⟨t, _, runTrace_cons_next hstep hrun, ht, List.forall_mem_cons.mpr ⟨hP, hos⟩⟩

/-- In SEEK_HEADER_1 bytes other than HEADER_BYTE_1 are consumed and lost (R91, R94). -/
theorem runTrace_h1Miss {s : State} {bs : List Byte} (h : s.cursor = 0) (hbs : ∀ b ∈ bs, b ≠ s.cfg.headerByte1) :
    ∃ t os, runTrace (bs.map .p) s = .next (t, os) ∧ Unmoved s t ∧ ∀ o ∈ os, o = ⟨true, false⟩ := by
  refine runTrace_unmoved (P := (· = ⟨true, false⟩)) fun tok htok u hu => ⟨_, ?_, rfl⟩
  obtain ⟨b, hb, rfl⟩ := List.mem_map.mp htok
  exact stays_h1Miss (hu.cursor.trans h) (hu.cfg ▸ hbs b hb)

/-- In SEEK_HEADER_2 bytes other than HEADER_BYTE_2 are consumed and lost (R93, R94). -/
theorem runTrace_h2Miss {s : State} {bs : List Byte} (h : s.cursor = 1) (hbs : ∀ b ∈ bs, b ≠ s.cfg.headerByte2) :
    ∃ t os, runTrace (bs.map .p) s = .next (t, os) ∧ Unmoved s t ∧ ∀ o ∈ os, o = ⟨true, false⟩ := by
  refine runTrace_unmoved (P := (· = ⟨true, false⟩)) fun tok htok u hu => ⟨_, ?_, rfl⟩
  obtain ⟨b, hb, rfl⟩ := List.mem_map.mp htok
  exact stays_h2Miss (hu.cursor.trans h) (hu.cfg ▸ hbs b hb)

/-- Settles O45: every token but RESET and HEADER_BYTE_2 leaves the state as it is at CURSOR 1. -/
theorem stallInSeekHeaderTwo : Obligations.StallInSeekHeaderTwo := by
  intro s ts hcursor hts
  have hstays : ∀ tok ∈ ts, ∀ u, Unmoved s u → ∃ o, Stays tok u o ∧ o.frameDone = false := by
    intro tok htok u hu
    obtain ⟨hr, hb⟩ := hts tok htok
    have hu1 : u.cursor = 1 := hu.cursor.trans hcursor
    cases tok with
    | r => exact absurd rfl hr
    | i => exact ⟨_, stays_i u, rfl⟩
    | pNone => exact ⟨_, stays_pNone_of_lt (hu1.trans_lt (two_le_capacity u.cfg)), rfl⟩
    | p b => exact ⟨_, stays_h2Miss hu1 fun he => hb (by rw [he, hu.cfg]), rfl⟩
  obtain ⟨t, os, hrun, hst, hos⟩ := runTrace_unmoved hstays
  exact ⟨t, os, hrun, hst.cursor.trans hcursor, hst.buf, hst.channels, hos⟩

/-- Idle steps and polls that are not eligible leave a complete frame waiting (R107, R110). -/
theorem runTrace_waits {s : State} {ts : List Token}
    (hts : ∀ tok ∈ ts, tok = .i ∨ (s.cfg.completionGate = .byteGated ∧ tok = .pNone)) :
    ∃ t os, runTrace ts s = .next (t, os) ∧ Unmoved s t ∧ ∀ o ∈ os, o = ⟨false, false⟩ := by
  refine runTrace_unmoved (P := (· = ⟨false, false⟩)) fun tok htok u hu => ⟨_, ?_, rfl⟩
  rcases hts tok htok with rfl | ⟨hgate, rfl⟩
  · exact stays_i u
  · exact stays_pNone fun hungated => by rw [hu.cfg, hgate] at hungated; cases hungated

/-- Settles O47: waiting steps at CURSOR = CAPACITY. -/
theorem completionWaitsForByte : Obligations.CompletionWaitsForByte := by
  intro s ts hgate hcursor hts
  obtain ⟨t, os, hrun, hst, hos⟩ := runTrace_waits fun tok htok => (hts tok htok).imp_right fun h => ⟨hgate, h⟩
  exact ⟨t, os, hrun, hst.cursor.trans hcursor, hst.buf, hst.channels, hos⟩

/-! ### The header (R94, R95) -/

/-- The step of a token that appends one byte: what it stores, moves and leaves. -/
theorem stepToken_append {tok : Token} {s : State} {a c : Nat} {v : Byte}
    {hc : c ≤ (s.withInputs [tokenPins tok]).cfg.capacity}
    (hstep : stepToken tok s = .next (appendByte a v c (s.withInputs [tokenPins tok]) hc).nextEdge) :
    ∃ t, stepToken tok s = .next t ∧ t.cfg = s.cfg ∧ byteAt t a = v ∧ t.cursor = c ∧ KeepsBufExcept s t a ∧
      KeepsChannels s t ∧ outputsOf t = ⟨true, false⟩ := by
  obtain ⟨hbyte, -, hbuf, -⟩ := appendByte_frame a v c (s.withInputs [tokenPins tok]) hc
  exact ⟨_, hstep, rfl, hbyte, rfl, hbuf, ⟨rfl, rfl⟩, rfl⟩

/-- Settles O43: bytes lost at CURSOR 0, the append at address 0, bytes lost at CURSOR 1, the append at address 1. -/
theorem acceptedHeader : Obligations.AcceptedHeader := by
  intro s before between hcursor hbefore hbetween
  obtain ⟨t₁, os₁, hrun₁, h₁, hos₁⟩ := runTrace_h1Miss hcursor hbefore
  obtain ⟨t₂, hstep₂, hcfg₂, hbyte₂, hcursor₂, hbuf₂, hchan₂, hout₂⟩ :=
    stepToken_append (stepToken_h1Match (h₁.cursor.trans hcursor))
  rw [h₁.cfg] at hstep₂ hcfg₂ hbyte₂
  obtain ⟨t₃, os₃, hrun₃, h₃, hos₃⟩ := runTrace_h2Miss (s := t₂) hcursor₂ (hcfg₂ ▸ hbetween)
  have hcfg₃ : t₃.cfg = s.cfg := h₃.cfg.trans hcfg₂
  obtain ⟨t₄, hstep₄, -, hbyte₄, hcursor₄, hbuf₄, hchan₄, hout₄⟩ :=
    stepToken_append (stepToken_h2Match (h₃.cursor.trans hcursor₂))
  rw [hcfg₃] at hstep₄ hbyte₄
  have hrun := runTrace_append (runTrace_append (runTrace_append hrun₁ (runTrace_singleton hstep₂)) hrun₃)
    (runTrace_singleton hstep₄)
  simp only [List.map_append, List.map_cons, List.map_nil]
  refine ⟨t₄, _, hrun, hcursor₄, ?_, hbyte₄, fun a ha => ?_, ?_, ?_⟩
  · rw [hbuf₄ 0 (by decide), h₃.buf, hbyte₂]
  · rw [hbuf₄ a (by omega), h₃.buf, hbuf₂ a (by omega), h₁.buf]
  · exact ((h₁.channels.trans hchan₂).trans h₃.channels).trans hchan₄
  · simp only [List.mem_append, List.mem_singleton]
    rintro o (((ho | rfl) | ho) | rfl)
    · exact hos₁ o ho
    · exact hout₂
    · exact hos₃ o ho
    · exact hout₄

/-- The step of a token publishes nothing and leaves the rest of the trace without an accepted header; CURSOR tells
whether HEADER_BYTE_1 has been seen (R95 (a)). -/
def LeavesNoHeader (tok : Token) (ts : List Token) (s : State) : Prop :=
  ∃ u seen, stepToken tok s = .next u ∧ u.cfg = s.cfg ∧ u.cursor = Bool.toNat seen ∧
    holdsHeader s.cfg seen ts = false ∧ KeepsChannels s u ∧ u.frameDone = false

/-- A step that leaves the state as it is, where the rest holds no header. -/
theorem Stays.leavesNoHeader {tok : Token} {ts : List Token} {s : State} {o : Outputs} {seen : Bool}
    (h : Stays tok s o) (hdone : o.frameDone = false) (hcursor : s.cursor = seen.toNat)
    (hno : holdsHeader s.cfg seen ts = false) : LeavesNoHeader tok ts s := by
  obtain ⟨u, hstep, hu, rfl⟩ := h
  exact ⟨u, seen, hstep, hu.cfg, hu.cursor.trans hcursor, hno, hu.channels, hdone⟩

/-- Each token of a trace without an accepted header, in either header class (R95 (a)). -/
theorem leavesNoHeader {tok : Token} {ts : List Token} {s : State} {seen : Bool} (hcursor : s.cursor = seen.toNat)
    (hr : tok ≠ .r) (hno : holdsHeader s.cfg seen (tok :: ts) = false) : LeavesNoHeader tok ts s := by
  have hlt : s.cursor < s.cfg.capacity := by
    have := two_le_capacity s.cfg
    have := Bool.toNat_le seen
    omega
  cases tok with
  | r => exact absurd rfl hr
  | i => exact (stays_i s).leavesNoHeader rfl hcursor hno
  | pNone => exact (stays_pNone_of_lt hlt).leavesNoHeader rfl hcursor hno
  | p b =>
    cases seen with
    | true =>
      obtain ⟨hb, hrest⟩ := Bool.or_eq_false_iff.mp hno
      exact (stays_h2Miss hcursor (ne_of_beq_false hb)).leavesNoHeader rfl (seen := true) hcursor hrest
    | false =>
      have hno : holdsHeader s.cfg (b == s.cfg.headerByte1) ts = false := hno
      by_cases hb : b = s.cfg.headerByte1
      · obtain ⟨u, hstep, hcfg, -, hcursor', -, hchannels, hout⟩ := stepToken_append (stepToken_h1Match hcursor)
        refine ⟨u, true, hb ▸ hstep, hcfg, hcursor', ?_, hchannels, congrArg Outputs.frameDone hout⟩
        rwa [beq_iff_eq.mpr hb] at hno
      · rw [beq_false_of_ne hb] at hno
        exact (stays_h1Miss hcursor hb).leavesNoHeader rfl (seen := false) hcursor hno

/-- A trace without an accepted header, from either header class (R95 (a)). -/
theorem runTrace_without_header {ts : List Token} {s : State} {seen : Bool} (hcursor : s.cursor = seen.toNat)
    (hr : ∀ tok ∈ ts, tok ≠ .r) (hno : holdsHeader s.cfg seen ts = false) :
    ∃ t os, runTrace ts s = .next (t, os) ∧ t.cursor ≤ 1 ∧ KeepsChannels s t ∧ ∀ o ∈ os, o.frameDone = false := by
  induction ts generalizing s seen with
  | nil => exact ⟨s, [], rfl, hcursor.trans_le (Bool.toNat_le seen), ⟨rfl, rfl⟩, by simp⟩
  | cons tok ts ih =>
    obtain ⟨hr, hrs⟩ := List.forall_mem_cons.mp hr
    obtain ⟨u, seen', hstep, hcfg, hcursor', hno', hchannels, hdone⟩ := leavesNoHeader hcursor hr hno
    obtain ⟨t, os, hrun, hle, hchannels', hos⟩ := ih hcursor' hrs (hcfg ▸ hno')
    exact ⟨t, _, runTrace_cons_next hstep hrun, hle, hchannels.trans hchannels', List.forall_mem_cons.mpr ⟨hdone, hos⟩⟩

/-- Settles O44: the trace, with HEADER_BYTE_1 not yet seen at CURSOR 0. -/
theorem noHeaderNoFrame : Obligations.NoHeaderNoFrame :=
  fun _ _ hcursor hr hno => runTrace_without_header (seen := false) hcursor hr hno

/-! ### The payload (R100 to R102) -/

/-- Settles O46: one append after another, each at the CURSOR that the one before left. -/
theorem payloadStoredInOrder : Obligations.PayloadStoredInOrder := by
  intro s bs htwo hfit
  induction bs generalizing s with
  | nil => exact ⟨s, [], rfl, rfl, by simp, fun _ _ => rfl, ⟨rfl, rfl⟩, by simp⟩
  | cons b bs ih =>
    rw [List.length_cons] at hfit
    obtain ⟨u, hstep, hcfg, hbyte, hcursor, hbuf, hchannels, hout⟩ :=
      stepToken_append (stepToken_fill b htwo (show s.cursor + 1 ≤ s.cfg.capacity by omega))
    obtain ⟨t, os, hrun, hcursor', hstored, hother, hchannels', hos⟩ :=
      ih u (by omega) (by rw [hcfg, hcursor]; omega)
    refine ⟨t, _, runTrace_cons_next hstep hrun, ?_, fun k v hk => ?_, fun a ha => ?_, hchannels.trans hchannels',
      List.forall_mem_cons.mpr ⟨hout, hos⟩⟩
    · rw [hcursor', hcursor, List.length_cons]
      omega
    · cases k with
      | zero =>
        rw [Nat.add_zero, hother _ (.inl (by omega)), hbyte]
        exact Option.some.inj hk
      | succ k =>
        rw [← hstored k v hk, hcursor]
        congr 1
        omega
    · rw [List.length_cons] at ha
      rw [hother a (by omega), hbuf a (by omega)]

end Sys2Proof.Machine

/-! ### A frame in BUF and its publication (R60 to R62, R105, R110, R111) -/

namespace Sys2Proof.Machine

/-- The first bytes of a frame, exactly these, have been accepted: CURSOR is past them and BUF holds them. -/
structure Loaded (cfg : Cfg) (bytes : List Byte) (s : State) : Prop where
  cfg : s.cfg = cfg
  cursor : s.cursor = bytes.length
  buf : ∀ k b, bytes[k]? = some b → byteAt s k = b

/-- At CURSOR 0 no byte of a frame has been accepted. -/
theorem loaded_nil {s : State} (h : s.cursor = 0) : Loaded s.cfg [] s := ⟨rfl, h, by simp⟩

theorem Loaded.of_unmoved {cfg : Cfg} {bytes : List Byte} {s t : State} (h : Loaded cfg bytes s) (hst : Unmoved s t) :
    Loaded cfg bytes t :=
  ⟨hst.cfg.trans h.cfg, hst.cursor.trans h.cursor, fun k b hk => (hst.buf k).trans (h.buf k b hk)⟩

/-- The append of one byte at CURSOR. -/
theorem Loaded.append {cfg : Cfg} {bytes : List Byte} {s t : State} {b : Byte} (h : Loaded cfg bytes s)
    (hcfg : t.cfg = s.cfg) (hbyte : byteAt t s.cursor = b) (hcursor : t.cursor = s.cursor + 1)
    (hbuf : KeepsBufExcept s t s.cursor) : Loaded cfg (bytes ++ [b]) t := by
  refine ⟨hcfg.trans h.cfg, by simp [hcursor, h.cursor], fun k v hk => ?_⟩
  rw [h.cursor] at hbyte hbuf
  rcases lt_trichotomy k bytes.length with hlt | rfl | hgt
  · rw [List.getElem?_append_left hlt] at hk
    rw [hbuf k hlt.ne, h.buf k v hk]
  · rw [List.getElem?_concat_length] at hk
    exact hbyte.trans (Option.some.inj hk)
  · rw [List.getElem?_eq_none (by simpa using hgt)] at hk
    cases hk

/-- Where a byte stands in a frame: at a header position it is the header byte (R62). -/
theorem IsFrame.byte_cases {cfg : Cfg} {before after : List Byte} {b : Byte} (h : IsFrame cfg (before ++ b :: after)) :
    before.length < cfg.capacity ∧ ((before.length = 0 ∧ b = cfg.headerByte1) ∨
      (before.length = 1 ∧ b = cfg.headerByte2) ∨ 2 ≤ before.length) := by
  obtain ⟨hlen, h1, h2⟩ := h
  have hb : (before ++ b :: after)[before.length]? = some b := by simp
  rw [List.length_append, List.length_cons] at hlen
  refine ⟨by omega, ?_⟩
  rcases (by omega : before.length = 0 ∨ before.length = 1 ∨ 2 ≤ before.length) with h0 | h0 | h0
  · rw [h0, h1] at hb
    exact .inl ⟨h0, (Option.some.inj hb).symm⟩
  · rw [h0, h2] at hb
    exact .inr (.inl ⟨h0, (Option.some.inj hb).symm⟩)
  · exact .inr (.inr h0)

/-- A byte of a frame, at its place, is stored and consumed (R90, R92, R100). -/
theorem Loaded.stepToken_p {cfg : Cfg} {before after : List Byte} {b : Byte} {s : State} (h : Loaded cfg before s)
    (hframe : IsFrame cfg (before ++ b :: after)) :
    ∃ t, stepToken (.p b) s = .next t ∧ Loaded cfg (before ++ [b]) t ∧ outputsOf t = ⟨true, false⟩ := by
  obtain rfl := h.cfg
  suffices hstep : ∃ t, stepToken (.p b) s = .next t ∧ t.cfg = s.cfg ∧ byteAt t s.cursor = b ∧
      t.cursor = s.cursor + 1 ∧ KeepsBufExcept s t s.cursor ∧ KeepsChannels s t ∧ outputsOf t = ⟨true, false⟩ by
    obtain ⟨t, hstep, hcfg, hbyte, hcursor, hbuf, -, hout⟩ := hstep
    exact ⟨t, hstep, h.append hcfg hbyte hcursor hbuf, hout⟩
  obtain ⟨hlt, hcase⟩ := hframe.byte_cases
  rw [← h.cursor] at hlt hcase
  rcases hcase with ⟨h0, rfl⟩ | ⟨h1, rfl⟩ | h2
  · rw [h0]
    exact stepToken_append (stepToken_h1Match h0)
  · rw [h1]
    exact stepToken_append (stepToken_h2Match h1)
  · exact stepToken_append (stepToken_fill b h2 hlt)

/-- A step that leaves the state as it is accepts no byte. -/
theorem Loaded.of_stays {cfg : Cfg} {bytes : List Byte} {tok : Token} {s : State} {o : Outputs}
    (h : Loaded cfg bytes s) (hstays : Stays tok s o) (hdone : o.frameDone = false) :
    ∃ t, stepToken tok s = .next t ∧ Loaded cfg (bytes ++ []) t ∧ t.frameDone = false := by
  obtain ⟨t, hstep, hst, rfl⟩ := hstays
  exact ⟨t, hstep, (List.append_nil bytes).symm ▸ h.of_unmoved hst, hdone⟩

/-- Short of FRAME_COMPLETE every token but RESET accepts the byte that it offers, if any, and publishes nothing. -/
theorem Loaded.stepToken_of_ne_r {cfg : Cfg} {tok : Token} {before after : List Byte} {s : State}
    (h : Loaded cfg before s)
    (hr : tok ≠ .r) (hlt : before.length < cfg.capacity)
    (hframe : IsFrame cfg (before ++ (tokenByte tok).toList ++ after)) :
    ∃ t, stepToken tok s = .next t ∧ Loaded cfg (before ++ (tokenByte tok).toList) t ∧ t.frameDone = false := by
  cases tok with
  | r => exact absurd rfl hr
  | i => exact h.of_stays (stays_i s) rfl
  | pNone => exact h.of_stays (stays_pNone_of_lt (by rw [h.cursor, h.cfg]; exact hlt)) rfl
  | p b =>
    obtain ⟨t, hstep, ht, hout⟩ := h.stepToken_p (by simpa [tokenByte] using hframe)
    exact ⟨t, hstep, ht, congrArg Outputs.frameDone hout⟩

/-- The bytes that a trace offers, its first token apart. -/
theorem filterMap_tokenByte_cons (tok : Token) (ts : List Token) :
    (tok :: ts).filterMap tokenByte = (tokenByte tok).toList ++ ts.filterMap tokenByte := by
  cases tok <;> rfl

/-- The bytes of a frame but the last ones, spread among idle steps and polls without a byte, are stored in order. -/
theorem Loaded.runTrace {cfg : Cfg} {ts : List Token} {before after : List Byte} {s : State} (h : Loaded cfg before s)
    (hr : ∀ tok ∈ ts, tok ≠ .r) (hframe : IsFrame cfg (before ++ ts.filterMap tokenByte ++ after))
    (hafter : after ≠ []) :
    ∃ t os, runTrace ts s = .next (t, os) ∧ Loaded cfg (before ++ ts.filterMap tokenByte) t ∧
      ∀ o ∈ os, o.frameDone = false := by
  induction ts generalizing before s with
  | nil => exact ⟨s, [], rfl, by simpa using h, by simp⟩
  | cons tok ts ih =>
    obtain ⟨hr, hrs⟩ := List.forall_mem_cons.mp hr
    have hlt : before.length < cfg.capacity := by
      have hlen := hframe.1
      have := List.length_pos_iff.mpr hafter
      rw [List.length_append, List.length_append] at hlen
      omega
    rw [filterMap_tokenByte_cons, ← List.append_assoc] at hframe ⊢
    obtain ⟨u, hstep, hu, hdone⟩ := h.stepToken_of_ne_r hr hlt (List.append_assoc .. ▸ hframe)
    obtain ⟨t, os, hrun, ht, hos⟩ := ih hu hrs hframe
    exact ⟨t, _, runTrace_cons_next hstep hrun, ht, List.forall_mem_cons.mpr ⟨hdone, hos⟩⟩

/-- A whole frame, its last byte at the end of the trace, stands in BUF and is not published yet (R101, R110). -/
theorem runTrace_loads_frame {s : State} {ts : List Token} {last : Byte} (hcursor : s.cursor = 0)
    (hr : ∀ tok ∈ ts, tok ≠ .r) (hframe : IsFrame s.cfg (ts.filterMap tokenByte ++ [last])) :
    ∃ t os, runTrace (ts ++ [.p last]) s = .next (t, os) ∧ Loaded s.cfg (ts.filterMap tokenByte ++ [last]) t ∧
      ∀ o ∈ os, o.frameDone = false := by
  obtain ⟨u, us, hrun, hu, hus⟩ := (loaded_nil hcursor).runTrace hr hframe (by simp)
  obtain ⟨t, hstep, ht, hout⟩ := hu.stepToken_p hframe
  refine ⟨t, _, runTrace_append hrun (runTrace_singleton hstep), ht, fun o ho => ?_⟩
  rcases List.mem_append.mp ho with ho | ho
  · exact hus o ho
  · rw [List.mem_singleton.mp ho, hout]

/-- A frame has bytes (R62). -/
theorem IsFrame.ne_nil {cfg : Cfg} {frame : List Byte} (h : IsFrame cfg frame) : frame ≠ [] := by
  rintro rfl
  cases h.2.1

/-- The bytes of a frame at consecutive polls. -/
theorem runTrace_frame {s : State} {frame : List Byte} (hcursor : s.cursor = 0) (hframe : IsFrame s.cfg frame) :
    ∃ t os, runTrace (frame.map .p) s = .next (t, os) ∧ Loaded s.cfg frame t ∧ ∀ o ∈ os, o.frameDone = false := by
  obtain ⟨bytes, last, rfl⟩ : ∃ bytes last, frame = bytes ++ [last] :=
    ⟨_, _, (List.dropLast_append_getLast hframe.ne_nil).symm⟩
  have hbytes : (bytes.map Token.p).filterMap tokenByte = bytes := by
    simp [List.filterMap_map, Function.comp_def, tokenByte]
  have hload := runTrace_loads_frame (ts := bytes.map .p) (last := last) hcursor (by simp) (by rwa [hbytes])
  rwa [hbytes, ← List.map_singleton, ← List.map_append] at hload

/-- The field that two bytes make, as R110 writes it. -/
theorem assemble_eq_ofNat (lo hi : Byte) : assemble lo hi = BitVec.ofNat 16 (256 * hi.toNat + lo.toNat) := by
  rw [← assemble_toNat, BitVec.ofNat_toNat, BitVec.setWidth_eq]

/-- With a whole frame in BUF the extractor reads the frame's fields (R106, R110). -/
theorem Loaded.extractAll_eq {cfg : Cfg} {frame : List Byte} {s : State} (h : Loaded cfg frame s)
    (hlen : frame.length = cfg.capacity) : extractAll s = frameRaw cfg frame := by
  rw [extractAll, frameRaw, h.cfg]
  refine List.map_congr_left fun i hi => ?_
  have hbyte : ∀ k, k < cfg.capacity → byteAt s k = frame.getD k 0 := fun k hk => by
    have hk : k < frame.length := hlen ▸ hk
    rw [h.buf k _ (List.getElem?_eq_getElem hk), List.getD_eq_getElem _ _ hk]
  obtain ⟨hlow, hhigh⟩ : 2 + 2 * i < cfg.capacity ∧ 3 + 2 * i < cfg.capacity :=
    field_addresses_lt_capacity cfg (List.mem_range.mp hi)
  rw [extract16_eq_assemble, hbyte _ hlow, hbyte _ hhigh, assemble_eq_ofNat, fieldOf]

/-- What a reader of the ports sees of a published frame (R110). -/
def publicationOf (cfg : Cfg) (frame : List Byte) : List Field × List Int :=
  (frameRaw cfg frame, (frameRaw cfg frame).map (rescale cfg))

/-- A poll that completes a frame at FRAME_COMPLETE: with a byte, or under UNGATED any (R107). -/
def Eligible (cfg : Cfg) (tok : Token) : Prop :=
  (∃ b, tok = .p b) ∨ (cfg.completionGate = .ungated ∧ tok = .pNone)

/-- An eligible poll at FRAME_COMPLETE publishes, and takes a byte under BYTE_GATED alone (R105). -/
theorem stepToken_eligible {s : State} {tok : Token} (hcap : s.cursor = s.cfg.capacity) (htok : Eligible s.cfg tok) :
    stepToken tok s = .next (afterToken (publish (decide (s.cfg.completionGate = .byteGated))) tok s) := by
  cases hgate : s.cfg.completionGate with
  | ungated =>
    rcases htok with ⟨b, rfl⟩ | ⟨-, rfl⟩
    · exact stepToken_p_ungated b hgate hcap
    · exact stepToken_pNone_ungated hgate hcap
  | byteGated =>
    rcases htok with ⟨b, rfl⟩ | ⟨hungated, -⟩
    · exact stepToken_p_gated b hgate hcap
    · rw [hgate] at hungated
      cases hungated

/-- An eligible poll with a whole frame in BUF publishes the frame (R105, R110). -/
theorem Loaded.stepToken_eligible {cfg : Cfg} {frame : List Byte} {s : State} {tok : Token} (h : Loaded cfg frame s)
    (hlen : frame.length = cfg.capacity) (htok : Eligible cfg tok) :
    ∃ t, stepToken tok s = .next t ∧ t.cfg = cfg ∧ t.cursor = 0 ∧ (t.raw, t.scaled) = publicationOf cfg frame ∧
      t.frameDone = true ∧ (t.inTake = true ↔ cfg.completionGate = .byteGated) := by
  have hfields := h.extractAll_eq hlen
  obtain rfl := h.cfg
  refine ⟨_, Machine.stepToken_eligible (h.cursor.trans hlen) htok, rfl, rfl, ?_, rfl, decide_eq_true_iff⟩
  rw [publicationOf, ← hfields]
  rfl

/-- Settles O48: the frame is loaded, waits, and is published by the eligible poll. -/
theorem framePublished : Obligations.FramePublished := by
  intro s ts waits last tok hcursor hr hframe hwaits htok
  obtain ⟨t₁, os₁, hrun₁, h₁, -⟩ := runTrace_loads_frame hcursor hr hframe
  obtain ⟨t₂, os₂, hrun₂, h₂, -⟩ := runTrace_waits (s := t₁) (ts := waits) (h₁.cfg.symm ▸ hwaits)
  obtain ⟨t, hstep, -, hcursor', hpub, hdone, htake⟩ := (h₁.of_unmoved h₂).stepToken_eligible hframe.1 htok
  exact ⟨t, _, runTrace_append (runTrace_append hrun₁ hrun₂) (runTrace_singleton hstep), hcursor',
    congrArg Prod.fst hpub, congrArg Prod.snd hpub, hdone, htake⟩

/-- Settles O49: the first byte of the second frame publishes the first, and CURSOR 0 loses the others. -/
theorem gatedLosesSecondFrame : Obligations.GatedLosesSecondFrame := by
  intro s first second hgate hcursor hfirst hsecond hlost
  obtain ⟨b, rest, rfl⟩ := List.exists_cons_of_ne_nil hsecond.ne_nil
  obtain ⟨t₁, os₁, hrun₁, h₁, -⟩ := runTrace_frame hcursor hfirst
  obtain ⟨t₂, hstep₂, hcfg₂, hcursor₂, hpub₂, -, -⟩ := h₁.stepToken_eligible hfirst.1 (tok := .p b) (.inl ⟨b, rfl⟩)
  obtain ⟨t₃, os₃, hrun₃, h₃, -⟩ := runTrace_h1Miss (s := t₂) (bs := rest) hcursor₂ (hcfg₂ ▸ hlost)
  have hrun := runTrace_append hrun₁ (runTrace_cons_next hstep₂ hrun₃)
  rw [List.map_append, List.map_cons]
  exact ⟨t₃, _, hrun, h₃.cursor.trans hcursor₂, h₃.channels.1.trans (congrArg Prod.fst hpub₂),
    h₃.channels.2.trans (congrArg Prod.snd hpub₂)⟩

/-! ### Streams under UNGATED (R73, R111) -/

/-- A byte of a frame, at its place, moves CURSOR by one (T89). -/
theorem nextCursor_frameByte {cfg : Cfg} {before after : List Byte} {b : Byte}
    (h : IsFrame cfg (before ++ b :: after)) :
    nextCursor (decode cfg (packDispatch false true (classOf cfg.capacity before.length) true b)) before.length =
      before.length + 1 := by
  obtain ⟨hlt, hcase⟩ := h.byte_cases
  simp only [decode_pack, classOf_eq_complete, hlt.ne, and_false, Bool.not_true, Bool.false_eq_true, if_false]
  rcases hcase with ⟨h0, rfl⟩ | ⟨h1, rfl⟩ | h2
  · simp [h0, decodeConsumed, nextCursor]
  · simp [h1, decodeConsumed, nextCursor, clsSeek1_ne_clsSeek2.symm]
  · rw [(decodeConsumed_eq_fill cfg _ b b).mpr]
    · rfl
    · rw [ne_eq, ne_eq, classOf_eq_seek1, classOf_eq_seek2]
      exact ⟨by omega, by omega, rfl⟩

/-- The rest of a frame is streamed byte by byte, and the stream goes on at FRAME_COMPLETE. -/
theorem streamTokens_frame_append {cfg : Cfg} (rest : List Byte) {before after : List Byte}
    (h : IsFrame cfg (before ++ after)) :
    streamTokens cfg before.length (after ++ rest) = after.map .p ++ streamTokens cfg cfg.capacity rest := by
  induction after generalizing before with
  | nil =>
    have hlen : before.length = cfg.capacity := by simpa using h.1
    simp [hlen]
  | cons b after ih =>
    have hne : ¬(cfg.completionGate = .ungated ∧ before.length = cfg.capacity) := fun hc => h.byte_cases.1.ne hc.2
    have hnext := ih (before := before ++ [b]) (by simpa using h)
    rw [List.length_append, List.length_singleton] at hnext
    rw [List.cons_append, streamTokens, if_neg hne, nextCursor_frameByte h, hnext, List.map_cons, List.cons_append]

/-- At FRAME_COMPLETE the first byte of the next frame is offered twice (R73). -/
theorem streamTokens_pending {cfg : Cfg} (hgate : cfg.completionGate = .ungated) (rest : List Byte) {frame : List Byte}
    (h : IsFrame cfg frame) :
    streamTokens cfg cfg.capacity (frame ++ rest) =
      .p cfg.headerByte1 :: (frame.map .p ++ streamTokens cfg cfg.capacity rest) := by
  obtain ⟨b, tail, rfl⟩ := List.exists_cons_of_ne_nil h.ne_nil
  obtain rfl : b = cfg.headerByte1 := Option.some.inj h.2.1
  have htail := streamTokens_frame_append rest (before := [cfg.headerByte1]) (after := tail) h
  rw [List.cons_append, streamTokens, if_pos ⟨hgate, rfl⟩, List.map_cons, List.cons_append, ← htail]
  simp [decodeConsumed, nextCursor]

/-- A run without `frame_done` publishes nothing. -/
theorem publications_eq_nil {ts : List Token} {s t : State} {os : List Outputs} (hrun : runTrace ts s = .next (t, os))
    (hos : ∀ o ∈ os, o.frameDone = false) : publications ts s = [] := by
  induction ts generalizing s os with
  | nil => rfl
  | cons tok ts ih =>
    obtain ⟨u, us, hstep, hrest, rfl⟩ := runTrace_cons_inv hrun
    obtain ⟨hdone, hus⟩ := List.forall_mem_cons.mp hos
    have hdone : u.frameDone = false := hdone
    rw [publications_cons hstep, ih hrest hus, hdone]
    rfl

/-- With a whole frame waiting, a stream of frames and a poll publish that frame and these, in order, and before the
poll the last of them waits (R111). -/
theorem publications_pending {cfg : Cfg} (hgate : cfg.completionGate = .ungated) {tok : Token}
    (htok : Eligible cfg tok) {frames : List (List Byte)} (hframes : ∀ g ∈ frames, IsFrame cfg g) {f : List Byte}
    (hf : f.length = cfg.capacity) {s : State} (h : Loaded cfg f s) :
    publications (streamTokens cfg cfg.capacity frames.flatten ++ [tok]) s =
      (f :: frames).map (publicationOf cfg) ∧
    ∃ t os g, runTrace (streamTokens cfg cfg.capacity frames.flatten) s = .next (t, os) ∧
      g.length = cfg.capacity ∧ Loaded cfg g t := by
  induction frames generalizing f s with
  | nil =>
    obtain ⟨u, hstep, -, -, hpub, hdone, -⟩ := h.stepToken_eligible hf htok
    refine ⟨?_, s, [], f, rfl, hf, h⟩
    rw [List.flatten_nil, streamTokens, List.nil_append, publications_cons hstep, if_pos hdone, hpub]
    rfl
  | cons g frames ih =>
    obtain ⟨hg, hframes⟩ := List.forall_mem_cons.mp hframes
    obtain ⟨u, hstep, hcfg, hcursor, hpub, hdone, -⟩ :=
      h.stepToken_eligible hf (tok := .p cfg.headerByte1) (.inl ⟨_, rfl⟩)
    subst hcfg
    obtain ⟨v, vs, hrun, hv, hvs⟩ := runTrace_frame hcursor hg
    obtain ⟨hpubs, t, os, last, hrest, hlast, ht⟩ := ih hframes hg.1 hv
    rw [List.flatten_cons, streamTokens_pending hgate _ hg]
    refine ⟨?_, t, _, last, runTrace_cons_next hstep (runTrace_append hrun hrest), hlast, ht⟩
    rw [List.cons_append, List.append_assoc, publications_cons hstep, if_pos hdone, hpub, publications_append hrun,
      publications_eq_nil hrun hvs, hpubs]
    rfl

/-- Below CAPACITY no step publishes (R105, T89). -/
theorem frameDone_of_cursor_lt {s t : State} (hlt : s.cursor < s.cfg.capacity) (h : step s = .next t) :
    t.frameDone = false := by
  refine eq_false_of_ne_true fun hdone => ?_
  obtain ⟨-, -, -, -, -, hcap⟩ := cursorFollowsTransitionTable s t h
  exact hlt.ne (hcap ((publishes_iff _).mp (step_frameDone h ▸ hdone)))

/-- Settles O50: the first frame is loaded from CURSOR 0, and from then on one is always waiting. -/
theorem ungatedDecodesBackToBack : Obligations.UngatedDecodesBackToBack := by
  intro s frames tok hgate hcursor hframes htok
  have heligible : Eligible s.cfg tok := htok.symm.imp_right fun h => ⟨hgate, h⟩
  cases frames with
  | nil =>
    obtain ⟨u, hstep⟩ := stepNeverStops (s.withInputs [tokenPins tok])
    have hlt : s.cursor < s.cfg.capacity := hcursor.trans_lt (one_le_capacity s.cfg)
    have hdone : u.frameDone = false :=
      frameDone_of_cursor_lt (s := s.withInputs [tokenPins tok]) hlt hstep
    refine ⟨publications_eq_nil (runTrace_singleton hstep) (by simpa [outputsOf] using hdone), s, [], u, _, rfl,
      runTrace_singleton hstep, fun hne => absurd rfl hne⟩
  | cons f frames =>
    obtain ⟨hf, hframes⟩ := List.forall_mem_cons.mp hframes
    obtain ⟨v, vs, hrun, hv, hvs⟩ := runTrace_frame hcursor hf
    obtain ⟨hpubs, t, os, last, hrest, hlast, ht⟩ := publications_pending hgate heligible hframes hf.1 hv
    obtain ⟨u, hstep, -, hcursor', -⟩ := ht.stepToken_eligible hlast heligible
    have hstream : streamTokens s.cfg 0 (f :: frames).flatten =
        f.map .p ++ streamTokens s.cfg s.cfg.capacity frames.flatten :=
      streamTokens_frame_append _ (before := []) hf
    rw [hstream]
    refine ⟨?_, t, _, u, _, runTrace_append hrun hrest, runTrace_singleton hstep, fun _ =>
      ⟨ht.cursor.trans hlast, hcursor'⟩⟩
    rw [List.append_assoc, publications_append hrun, publications_eq_nil hrun hvs, hpubs]
    rfl

end Sys2Proof.Machine
